-- ==== Sys2Proof/Word.lean ====
section
/-! DEFINITION. The word types of the CHIP-8 core (spec/00_scope.md R7: every value is unsigned). -/

namespace Sys2Proof

/-- A memory byte, a general register, a timer (spec/10_state.md R15). -/
abbrev Byte := BitVec 8

/-- An instruction word, I, PC, a stack entry (spec/10_state.md R15). -/
abbrev Word := BitVec 16

/-- A 4-bit field of an instruction word (spec/30_encoding.md R56). -/
abbrev Nibble := BitVec 4

/-- A general register's number, 0x0 to 0xF, "selected by a 4-bit field" (spec/10_state.md R16). -/
abbrev Reg := BitVec 4

/-- The 12-bit address immediate nnn (spec/30_encoding.md R56). -/
abbrev Addr12 := BitVec 12

end Sys2Proof
end

