-- ==== Sys2Proof/Config.lean ====
section
/-! DEFINITION. What an implementation fixes (spec/00_scope.md R5), and the free value the spec leaves open.
The DEFAULT values of the parameters are in Machine/Defaults.lean. -/

namespace Sys2Proof

/-- SHIFT_MODE (R5, R6): what 8xy6 and 8xyE shift. -/
inductive ShiftMode where
  | vxOnly
  | vySource
  deriving DecidableEq, Repr

/-- LOW_WRITE_POLICY (R5, spec/20_memory.md R47): what a program's write below 0x200 does. -/
inductive LowWritePolicy where
  | fault
  | write
  deriving DecidableEq, Repr

/-- The implementation parameters of R5 (`RESET_V` and `RESET_I` are launch parameters: `Launch`). -/
structure Config where
  /-- SHIFT_MODE. -/
  shiftMode : ShiftMode
  /-- LOAD_STORE_INCREMENTS_I: whether Fx55 and Fx65 advance I. -/
  loadStoreIncrementsI : Bool
  /-- LOW_WRITE_POLICY. -/
  lowWritePolicy : LowWritePolicy
  /-- FONT_BASE, at most 0x1B0 (spec/20_memory.md R42; checked by `Config.wellFormed`). -/
  fontBase : Nat
  /-- FONT_DATA: 16 glyphs of 5 bytes (R42). -/
  fontData : Vector Byte 80
  /-- IPS: instructions per second, OPEN, no default; no rule reads it (spec/70_reset_and_hazards.md R146; log entry 10). -/
  ips : Option Nat
  deriving DecidableEq, Repr

/-- What a launch fixes beside the parameters: the "launch parameters" of spec/10_state.md R35, the stack slots
R36 leaves unspecified, and the program bytes of spec/70_reset_and_hazards.md R137. -/
structure Launch where
  cfg : Config
  resetV : Vector Byte 16
  resetI : Word
  resetStack : Vector Word 16
  program : List Byte
  deriving DecidableEq, Repr

/-- FREE VALUE (log entry 4): the random byte the n-th draw reads. spec/00_scope.md R12: "every byte 0x00-0xFF is
possible at every step". It has no body: no proof can know a value of it. -/
opaque Config.rnd : Nat → Byte

/-- MEM_SIZE: addresses 0x000-0xFFF (R5). -/
abbrev memSize : Nat := 0x1000

/-- PROGRAM_BASE; the addresses below it are the reserved range (R5). -/
abbrev programBase : Nat := 0x200

/-- MAX_PROGRAM: 4096 - 0x200 bytes (R5). -/
abbrev maxProgram : Nat := memSize - programBase

/-- The largest FONT_BASE: the font stays inside the reserved range (spec/20_memory.md R42). -/
abbrev maxFontBase : Nat := 0x1B0

end Sys2Proof
end

