-- ==== Sys2Proof/Machine/Defaults.lean ====
section
/-! DEFINITION. The parameters' default values (spec/00_scope.md R5) and the launch values `State.reset` takes. -/

namespace Sys2Proof.Machine

/-- FONT_DATA's default: the table of spec/20_memory.md R42, glyph 0 first, 5 bytes a glyph. -/
def defaultFontBytes : List Byte :=
  [0xF0, 0x90, 0x90, 0x90, 0xF0] ++ [0x20, 0x60, 0x20, 0x20, 0x70] ++
  [0xF0, 0x10, 0xF0, 0x80, 0xF0] ++ [0xF0, 0x10, 0xF0, 0x10, 0xF0] ++
  [0x90, 0x90, 0xF0, 0x10, 0x10] ++ [0xF0, 0x80, 0xF0, 0x10, 0xF0] ++
  [0xF0, 0x80, 0xF0, 0x90, 0xF0] ++ [0xF0, 0x10, 0x20, 0x40, 0x40] ++
  [0xF0, 0x90, 0xF0, 0x90, 0xF0] ++ [0xF0, 0x90, 0xF0, 0x10, 0xF0] ++
  [0xF0, 0x90, 0xF0, 0x90, 0x90] ++ [0xE0, 0x90, 0xE0, 0x90, 0xE0] ++
  [0xF0, 0x80, 0x80, 0x80, 0xF0] ++ [0xE0, 0x90, 0x90, 0x90, 0xE0] ++
  [0xF0, 0x80, 0xF0, 0x80, 0xF0] ++ [0xF0, 0x80, 0xF0, 0x80, 0x80]

def defaultFontData : Vector Byte 80 := ⟨defaultFontBytes.toArray, by decide⟩

/-- The defaults of R5; IPS has none. -/
def defaultConfig : Config where
  shiftMode := .vxOnly
  loadStoreIncrementsI := false
  lowWritePolicy := .fault
  fontBase := 0x050
  fontData := defaultFontData
  ips := none

/-- DESIGN CHOICE (log entry 2): the RESET_V that `State.reset` takes; spec/10_state.md R35 gives none. -/
def defaultResetV : Vector Byte 16 := Vector.replicate 16 0x00#8

/-- DESIGN CHOICE (log entry 2): the RESET_I that `State.reset` takes; R35 gives none. -/
def defaultResetI : Word := 0x0000#16

/-- DESIGN CHOICE (log entry 3): the stack slots at reset; R36: "A model may hold any values there". -/
def defaultResetStack : Vector Word 16 := Vector.replicate 16 0x0000#16

end Sys2Proof.Machine
end

