-- ==== Sys2Proof/Machine/State.lean ====
section
/-! DEFINITION. The machine's state (spec/10_state.md R15), its reasons to stop, and the state after reset (R34). -/

namespace Sys2Proof.Machine

/-- STATUS (R30). -/
inductive Status where
  /-- RUNNING: the next step fetches and executes the instruction at PC. -/
  | running
  /-- AWAIT_KEY: the last step executed Fx0A and saw no key-press edge. -/
  | awaitKey
  /-- HALTED: a fault was taken. -/
  | halted
  deriving DecidableEq, Repr

/-- The kinds of fault the core raises (spec/60_exceptions.md R114). -/
inductive FaultKind where
  | stackOverflow
  | stackUnderflow
  | unknownOpcode
  | memoryOutOfRange
  | reservedWrite
  | operandOutOfRange
  deriving DecidableEq, Repr

/-- The last field of a fault record (R31): the offending address, the offending V[x], or absent. -/
inductive FaultInfo where
  | absent
  | addr (a : Nat)
  | value (v : Byte)
  deriving DecidableEq, Repr

/-- What is raised, before PC and the word are recorded. -/
structure Trap where
  kind : FaultKind
  info : FaultInfo
  deriving DecidableEq, Repr

/-- FAULT's record (R31). Its numeric code is a function of the kind: `FaultKind.code`. -/
structure FaultRecord where
  kind : FaultKind
  /-- PC of the instruction that faulted. -/
  pc : Word
  /-- Its word; none for a fetch fault. -/
  bits : Option Word
  info : FaultInfo
  deriving DecidableEq, Repr

/-- One event of the core (spec/00_scope.md R13); a reset is not one (it makes a new machine: `boot`). -/
inductive Event where
  /-- An instruction step (spec/30_encoding.md R66). -/
  | step
  /-- The 60 Hz timer tick (spec/60_exceptions.md R122). -/
  | tick
  /-- A key-state update with the full set of pressed keys (R125). -/
  | keyUpdate (keys : Word)
  /-- The host's present acknowledge (R126). -/
  | presentAck
  deriving DecidableEq, Repr

/-- MEM as (address, byte) pairs in the canonical form of `Memory.wf`; an unlisted address holds its reset content. -/
abbrev Memory := List Host.Cell

/-- DISP: 32 rows of 64 pixels, row-major (R26). -/
abbrev Display := Vector (Vector Bool 64) 32

/-- The machine. The fields down to `fault` are the spec's (R15); the last three are the model's own: the parameters
(log entry 1), the random-byte counter (log entry 4), the host's pending events (log entry 5). -/
structure State where
  /-- V[0..15] (R16). -/
  v : Vector Byte 16
  /-- I (R19). -/
  i : Word
  /-- PC (R21). -/
  pc : Word
  /-- SP: how many return addresses are held, 0 to 16 (R23). -/
  sp : Fin 17
  /-- STACK[0..15] (R23). -/
  stack : Vector Word 16
  /-- DT (R25). -/
  dt : Byte
  /-- ST (R25). -/
  st : Byte
  /-- MEM (spec/20_memory.md R37). -/
  mem : Memory
  /-- DISP (R26). -/
  disp : Display
  /-- DRAW_FLAG (R27). -/
  drawFlag : Bool
  /-- KEYS: bit k is key k (R28). -/
  keys : Word
  /-- KEYS_PREV: the key-edge latch (R29). -/
  keysPrev : Word
  /-- STATUS (R30). -/
  status : Status
  /-- FAULT (R31). -/
  fault : Option FaultRecord
  /-- The implementation parameters; no event changes them. -/
  cfg : Config
  /-- How many random bytes have been drawn: the next is `Config.rnd` of it. -/
  draws : Nat
  /-- The host's pending events, oldest first; with none pending the host issues an instruction step. -/
  events : List Event
  deriving DecidableEq, Repr

/-- Why a step does not happen. -/
inductive Fault where
  /-- Raised by `cpuStep` alone: "In `HALTED` there is no instruction step" (spec/60_exceptions.md R117). Safe: the
  machine stops where the spec says it takes no step. (A fault of R114 is not this: taking it is a next state.) -/
  | halted
  deriving DecidableEq, Repr

/-- Why an instruction has no meaning. -/
inductive Refusal where
  /-- Raised by an arm of `exec` whose instruction has no meaning yet; no arm does. Safe. -/
  | notModelled (mnemonic : String)
  deriving DecidableEq, Repr

/-- A blank display: every pixel off. -/
def Display.blank : Display := Vector.replicate 32 (Vector.replicate 64 false)

/-- The state after reset, before the program bytes are copied (spec/70_reset_and_hazards.md R136): memory lists
nothing, so it holds the font and 0x00. -/
def State.launch (cfg : Config) (resetV : Vector Byte 16) (resetI : Word) (resetStack : Vector Word 16) : State where
  v := resetV
  i := resetI
  pc := 0x200#16
  sp := 0
  stack := resetStack
  dt := 0x00#8
  st := 0x00#8
  mem := []
  disp := Display.blank
  drawFlag := false
  keys := 0x0000#16
  keysPrev := 0x0000#16
  status := .running
  fault := none
  cfg := cfg
  draws := 0
  events := []

/-- The machine right after reset (R34), with the default parameters and no program; V, I and the stack slots, for
which the spec gives no value, as log entries 2 and 3 say. -/
def State.reset : State :=
  State.launch defaultConfig defaultResetV defaultResetI defaultResetStack

end Sys2Proof.Machine
end

