-- ==== Sys2Proof/Machine/Ops.lean ====
section
/-! DEFINITION. The named operations over registers, memory, the stack and the display, the address checks, and taking
a fault. -/

namespace Sys2Proof.Machine

/-! ### Field updates -/

/-- `pc <- target` (spec/00_scope.md R9). -/
def State.setPc (s : State) (target : Word) : State := { s with pc := target }

/-- `I <- v` (R9). -/
def State.setI (s : State) (v : Word) : State := { s with i := v }

/-- `DT <- v`. -/
def State.setDt (s : State) (v : Byte) : State := { s with dt := v }

/-- `ST <- v`. -/
def State.setSt (s : State) (v : Byte) : State := { s with st := v }

/-- Replace the whole memory. -/
def State.setMem (s : State) (m : Memory) : State := { s with mem := m }

/-- Replace the whole register file. -/
def State.setRegs (s : State) (v : Vector Byte 16) : State := { s with v := v }

/-- `STATUS <- v`. -/
def State.setStatus (s : State) (v : Status) : State := { s with status := v }

/-- `KEYS_PREV <- v`. -/
def State.setKeysPrev (s : State) (v : Word) : State := { s with keysPrev := v }

/-- The display written and `DRAW_FLAG <- 1` (spec/10_state.md R27). -/
def State.drawn (s : State) (d : Display) : State := { s with disp := d, drawFlag := true }

/-- One random byte has been drawn (log entry 4). -/
def State.countDraw (s : State) : State := { s with draws := s.draws + 1 }

/-! ### General registers (spec/10_state.md R16: no hardwired values, no aliases) -/

/-- VF: general register 15, also the flag register (R17). -/
abbrev VF : Reg := 0xF#4

/-- `V[x]`. -/
def State.getV (s : State) (x : Reg) : Byte := s.v[x.toNat]'x.isLt

/-- `V[x] <- b`. -/
def State.setV (s : State) (x : Reg) (b : Byte) : State := { s with v := s.v.set x.toNat b x.isLt }

/-! ### The program counter (spec/30_encoding.md R67) -/

/-- The default advance: `PC <- (PC + 2) mod 2^16`. -/
def State.advance (s : State) : State := s.setPc (s.pc + 2#16)

/-- The end of a skip rule: PC + 4 when taken, else PC + 2 (spec/40_control_flow.md R75). -/
def State.skipIf (taken : Bool) (s : State) : State :=
  s.setPc (if taken then s.pc + 4#16 else s.pc + 2#16)

/-! ### The call stack (spec/10_state.md R24) -/

/-- `Push(v)`; none where it raises StackOverflow. -/
def State.push (s : State) (v : Word) : Option State :=
  if h : s.sp.val < 16 then
    some { s with stack := s.stack.set s.sp.val v h, sp := ⟨s.sp.val + 1, Nat.succ_lt_succ h⟩ }
  else none

/-- `Pop()`: the value and the state after; none where it raises StackUnderflow. The slot keeps its value. -/
def State.pop (s : State) : Option (Word × State) :=
  if h : 0 < s.sp.val then
    have bound : s.sp.val - 1 < 16 := by have := s.sp.isLt; omega
    some (s.stack[s.sp.val - 1]'bound, { s with sp := ⟨s.sp.val - 1, Nat.lt_succ_of_lt bound⟩ })
  else none

/-! ### Memory (spec/20_memory.md) -/

/-- What an address holds after reset: the font at FONT_BASE, 0x00 elsewhere (spec/10_state.md R34, spec/20_memory.md R42).
It is what an unlisted address reads as. -/
def resetByte (c : Config) (a : Nat) : Byte :=
  if h : c.fontBase ≤ a ∧ a < c.fontBase + 80 then
    c.fontData[a - c.fontBase]'(by omega)
  else 0x00#8

/-- The byte at an address. -/
def Memory.get (c : Config) : Memory → Nat → Byte
  | [], a => resetByte c a
  | (k, b) :: m, a => if k = a then b else Memory.get c m a

/-- Insert, replace or remove one entry, so that the list stays canonical. -/
def Memory.put (c : Config) : Memory → Nat → Byte → Memory
  | [], a, b => if b = resetByte c a then [] else [(a, b)]
  | (k, old) :: m, a, b =>
    if k < a then (k, old) :: Memory.put c m a b
    else
      let rest := if k = a then m else (k, old) :: m
      if b = resetByte c a then rest else (a, b) :: rest

/-- `MEM[a] <- b`. No address above 0xFFF is memory (R41): the checks below keep a program from reaching one. -/
def Memory.set (c : Config) (m : Memory) (a : Nat) (b : Byte) : Memory :=
  if a < memSize then Memory.put c m a b else m

/-- Bytes at increasing addresses. -/
def Memory.setBytes (c : Config) (m : Memory) (base : Nat) : List Byte → Memory
  | [] => m
  | b :: bs => Memory.setBytes c (Memory.set c m base b) (base + 1) bs

/-- The canonical form: addresses strictly rising, all of them memory, no entry equal to its reset content. -/
abbrev Memory.wf (c : Config) (m : Memory) : Prop :=
  m.Pairwise (fun p q => p.1 < q.1) ∧ ∀ p ∈ m, p.1 < memSize ∧ p.2 ≠ resetByte c p.1

/-- `MEM[a]` of a state. -/
def State.readByte (s : State) (a : Nat) : Byte := Memory.get s.cfg s.mem a

/-- The bytes at base, base + 1, ..., n of them. -/
def State.readBytes (s : State) (base n : Nat) : List Byte :=
  (List.range n).map fun j => s.readByte (base + j)

/-- The bytes stored at base, base + 1, ... -/
def State.writeBytes (s : State) (base : Nat) (bs : List Byte) : State :=
  s.setMem (Memory.setBytes s.cfg s.mem base bs)

/-! ### Address checks (spec/20_memory.md R46-R48): all of an instruction's addresses, before any write -/

/-- The lowest of the n addresses from base that is above 0xFFF. -/
def outOfRange? (base n : Nat) : Option Nat :=
  ((List.range n).map (base + ·)).find? fun a => decide (0xFFF < a)

/-- The lowest of the n addresses from base that the policy keeps a program from writing (R47). -/
def reserved? (c : Config) (base n : Nat) : Option Nat :=
  match c.lowWritePolicy with
  | .fault => ((List.range n).map (base + ·)).find? fun a => decide (a < programBase)
  | .write => none

/-- The check of n reads from base: what is raised, if anything (R46). -/
def readTrap (base n : Nat) : Option Trap :=
  (outOfRange? base n).map fun a => ⟨.memoryOutOfRange, .addr a⟩

/-- The check of n writes from base; MemoryOutOfRange comes before ReservedWrite (R47, spec/60_exceptions.md R119). -/
def writeTrap (c : Config) (base n : Nat) : Option Trap :=
  match outOfRange? base n with
  | some a => some ⟨.memoryOutOfRange, .addr a⟩
  | none => (reserved? c base n).map fun a => ⟨.reservedWrite, .addr a⟩

/-! ### Taking a fault (spec/60_exceptions.md R116). There is no return from one (R118). -/

/-- The numeric codes of R114. -/
def FaultKind.code : FaultKind → Nat
  | .stackOverflow => 1
  | .stackUnderflow => 2
  | .unknownOpcode => 3
  | .memoryOutOfRange => 4
  | .reservedWrite => 5
  | .operandOutOfRange => 6

/-- `raise F(info)`: STATUS and FAULT are written and nothing else; PC stays at the faulting instruction. -/
def State.raise (s : State) (t : Trap) (bits : Option Word) : State :=
  { s with status := .halted, fault := some ⟨t.kind, s.pc, bits, t.info⟩ }

/-- A checked instruction: take the fault the check found, with the instruction's word, or run the body. -/
def guarded (trap : Option Trap) (bits : Word) (s : State) (body : Host.Outcome State Fault Refusal) :
    Host.Outcome State Fault Refusal :=
  match trap with
  | some t => .next (s.raise t (some bits))
  | none => body

/-! ### The display (spec/43_display.md) -/

/-- `DISP[r][c]`. -/
def Display.pixel (d : Display) (r : Fin 32) (c : Fin 64) : Bool := (d.get r).get c

/-- `DISP[r][c] <- DISP[r][c] ^ 1`. -/
def Display.flip (d : Display) (r : Fin 32) (c : Fin 64) : Display :=
  d.set r.val ((d.get r).set c.val (!(d.pixel r c)) c.isLt) r.isLt

/-- One 1 bit of a sprite at row py, column px: collide if the pixel is on, then toggle it (R104). -/
def drawPixel (r : Fin 32) (c : Fin 64) (acc : Display × Bool) : Display × Bool :=
  (acc.1.flip r c, acc.2 || acc.1.pixel r c)

/-- One row of a sprite: bit 7 is the leftmost pixel (R103); rows and columns wrap (R104). -/
def drawRow (cx cy : Nat) (b : Byte) (acc : Display × Bool) : Display × Bool :=
  (List.range 8).foldl
    (fun acc c => if b.getLsbD (7 - c) then drawPixel (Fin.ofNat 32 cy) (Fin.ofNat 64 (cx + c)) acc else acc) acc

/-- The rows of a sprite, from row cy down. -/
def drawRows (cx : Nat) : Nat → List Byte → Display × Bool → Display × Bool
  | _, [], acc => acc
  | cy, b :: bs, acc => drawRows cx (cy + 1) bs (drawRow cx cy b acc)

/-- A sprite drawn at column cx, row cy: the display after, and whether some pixel went from on to off (R104). -/
def drawSprite (cx cy : Nat) (bytes : List Byte) (d : Display) : Display × Bool :=
  drawRows cx cy bytes (d, false)

end Sys2Proof.Machine
end

