-- ==== Sys2Proof/Machine/Operands.lean ====
section
/-! DEFINITION. The operand forms (spec/30_encoding.md R57, R58) and the values read through them. -/

namespace Sys2Proof.Machine

/-- `zext_16(nnn)` (R58). -/
def zextAddr (nnn : Addr12) : Word := nnn.setWidth 16

/-- `zext_16(v)` of a byte. -/
def zextByte (b : Byte) : Word := b.setWidth 16

/-- Bnnn's target: `zext_16(nnn) + zext_16(V[0])`, not masked (spec/40_control_flow.md R74). -/
def State.offsetTarget (s : State) (nnn : Addr12) : Word := zextAddr nnn + zextByte (s.getV 0x0#4)

/-- The base of every data access: I, as a natural number (spec/42_index_memory.md R95; spec/20_memory.md R45: no wrap). -/
def State.dataBase (s : State) : Nat := s.i.toNat

/-- What 8xy6 and 8xyE shift (spec/41_alu.md R91, R93). -/
def State.shiftSource (s : State) (x y : Reg) : Byte :=
  match s.cfg.shiftMode with
  | .vxOnly => s.getV x
  | .vySource => s.getV y

/-- The check of a key number or a digit: `V[x] > 0xF` raises OperandOutOfRange (R98, R110, R111). -/
def State.digitTrap (s : State) (x : Reg) : Option Trap :=
  if 0x0F#8 < s.getV x then some ⟨.operandOutOfRange, .value (s.getV x)⟩ else none

/-- The address of a digit's glyph: `FONT_BASE + 5 * d` (spec/42_index_memory.md R98). -/
def glyphAddr (c : Config) (d : Byte) : Word := BitVec.ofNat 16 (c.fontBase + 5 * d.toNat)

/-- `KEYS[k]`. -/
def State.keyPressed (s : State) (k : Byte) : Bool := s.keys.getLsbD k.toNat

/-- The mask of key-press edges: `KEYS & ~KEYS_PREV` (spec/44_timers_keys.md R112, R113). -/
def State.keyEdges (s : State) : Word := s.keys &&& ~~~s.keysPrev

/-- `lowest_set(m)` (spec/00_scope.md R8); none for an empty mask. -/
def lowestSet? (m : Word) : Option Nat := (List.range 16).find? fun k => m.getLsbD k

/-- `KEYS_PREV[k] <- 1`: the press is consumed (R113). -/
def State.consumeKey (s : State) (k : Nat) : State := s.setKeysPrev (s.keysPrev ||| (1#16 <<< k))

/-- A byte's decimal digits: hundreds, tens, units (spec/42_index_memory.md R99). -/
def bcdDigits (v : Byte) : List Byte :=
  [BitVec.ofNat 8 (v.toNat / 100), BitVec.ofNat 8 (v.toNat / 10 % 10), BitVec.ofNat 8 (v.toNat % 10)]

/-- How many registers Fx55 and Fx65 move: V[0] .. V[x] (R100, R101). -/
def regCount (x : Reg) : Nat := x.toNat + 1

/-- `V[0] .. V[x]`, in order (R100). -/
def State.lowRegs (s : State) (x : Reg) : List Byte := s.v.toList.take (regCount x)

/-- A register file whose first registers are replaced by bytes, in order (R101). -/
def loadRegs : Nat → List Byte → Vector Byte 16 → Vector Byte 16
  | _, [], v => v
  | j, b :: bs, v => loadRegs (j + 1) bs (v.setIfInBounds j b)

/-- The end of Fx55 and Fx65: I advances by x + 1 only under LOAD_STORE_INCREMENTS_I (R100, R101). -/
def State.postIncrement (s : State) (x : Reg) : State :=
  if s.cfg.loadStoreIncrementsI then s.setI (s.i + BitVec.ofNat 16 (regCount x)) else s

/-- The column a draw starts at: `V[x] mod 64` (spec/43_display.md R104). -/
def State.drawColumn (s : State) (x : Reg) : Nat := (s.getV x).toNat % 64

/-- The row a draw starts at: `V[y] mod 32` (R104). -/
def State.drawRowIndex (s : State) (y : Reg) : Nat := (s.getV y).toNat % 32

end Sys2Proof.Machine
end

