-- ==== Sys2Proof/Machine/Flags.lean ====
section
/-! DEFINITION. The flag computations: VF gets 0x00 or 0x01 (spec/10_state.md R17), written last (spec/41_alu.md R82). -/

namespace Sys2Proof.Machine

/-- A flag's register value. -/
def flagByte (b : Bool) : Byte := if b then 0x01#8 else 0x00#8

/-- ADD's carry: the unsigned sum exceeds 255 (R89). -/
def carryOut (a b : Byte) : Bool := decide (255 < a.toNat + b.toNat)

/-- SUB's flag for a - b: 1 when no borrow occurs (R90; SUBN with the operands exchanged, R92). -/
def noBorrow (a b : Byte) : Bool := decide (b.toNat ≤ a.toNat)

/-- SHR's flag: bit 0 of the source (R91). -/
def shiftedOutRight (src : Byte) : Bool := src.getLsbD 0

/-- SHL's flag: bit 7 of the source (R93). -/
def shiftedOutLeft (src : Byte) : Bool := src.getLsbD 7

/-- `V[x] <- result`, then `V[15] <- flag` (R82): for x = F the flag is what stays. -/
def State.setResult (s : State) (x : Reg) (result : Byte) (flag : Bool) : State :=
  (s.setV x result).setV VF (flagByte flag)

end Sys2Proof.Machine
end

