-- ==== Sys2Proof/Machine/Alu.lean ====
section
/-! DEFINITION. The register file and the ALU (spec/41_alu.md): 8 bits, unsigned, modulo 256 (R81). -/

namespace Sys2Proof.Machine

/-- 6xkk (R83). -/
def execLdByte (x : Reg) (kk : Byte) (s : State) : Host.Outcome State Fault Refusal :=
  .next (s.setV x kk).advance

/-- 7xkk: no flag (R84). -/
def execAddByte (x : Reg) (kk : Byte) (s : State) : Host.Outcome State Fault Refusal :=
  .next (s.setV x (s.getV x + kk)).advance

/-- 8xy0 (R85). -/
def execLdReg (x y : Reg) (s : State) : Host.Outcome State Fault Refusal :=
  .next (s.setV x (s.getV y)).advance

/-- 8xy1 (R86). -/
def execOrReg (x y : Reg) (s : State) : Host.Outcome State Fault Refusal :=
  .next (s.setV x (s.getV x ||| s.getV y)).advance

/-- 8xy2 (R87). -/
def execAndReg (x y : Reg) (s : State) : Host.Outcome State Fault Refusal :=
  .next (s.setV x (s.getV x &&& s.getV y)).advance

/-- 8xy3 (R88). -/
def execXorReg (x y : Reg) (s : State) : Host.Outcome State Fault Refusal :=
  .next (s.setV x (s.getV x ^^^ s.getV y)).advance

/-- 8xy4: VF is the carry (R89). -/
def execAddReg (x y : Reg) (s : State) : Host.Outcome State Fault Refusal :=
  .next (s.setResult x (s.getV x + s.getV y) (carryOut (s.getV x) (s.getV y))).advance

/-- 8xy5: VF is 1 when no borrow occurs (R90). -/
def execSubReg (x y : Reg) (s : State) : Host.Outcome State Fault Refusal :=
  .next (s.setResult x (s.getV x - s.getV y) (noBorrow (s.getV x) (s.getV y))).advance

/-- 8xy6: VF is the bit shifted out (R91). -/
def execShrReg (x y : Reg) (s : State) : Host.Outcome State Fault Refusal :=
  .next (s.setResult x (s.shiftSource x y >>> 1) (shiftedOutRight (s.shiftSource x y))).advance

/-- 8xy7: Vy - Vx; VF is 1 when no borrow occurs (R92). -/
def execSubnReg (x y : Reg) (s : State) : Host.Outcome State Fault Refusal :=
  .next (s.setResult x (s.getV y - s.getV x) (noBorrow (s.getV y) (s.getV x))).advance

/-- 8xyE: VF is the bit shifted out (R93). -/
def execShlReg (x y : Reg) (s : State) : Host.Outcome State Fault Refusal :=
  .next (s.setResult x (s.shiftSource x y <<< 1) (shiftedOutLeft (s.shiftSource x y))).advance

/-- Cxkk: a fresh random byte, a free value (log entry 4), under the mask kk (R94). -/
def execRnd (x : Reg) (kk : Byte) (s : State) : Host.Outcome State Fault Refusal :=
  .next (s.setV x (Config.rnd s.draws &&& kk)).countDraw.advance

end Sys2Proof.Machine
end

