-- ==== Sys2Proof/Syntax.lean ====
section
/-! DEFINITION. The 34 instructions of spec/opcode_table.json, one constructor a row, in the table's order.
A constructor's arguments are the fields of its format (spec/30_encoding.md R57). -/

namespace Sys2Proof

inductive Instr where
  /-- 00E0 `CLS` (R102). -/
  | cls
  /-- 00EE `RET` (R71). -/
  | ret
  /-- 1nnn `JP addr` (R72). -/
  | jp (nnn : Addr12)
  /-- 2nnn `CALL addr` (R73). -/
  | call (nnn : Addr12)
  /-- 3xkk `SE Vx, byte` (R76). -/
  | seByte (x : Reg) (kk : Byte)
  /-- 4xkk `SNE Vx, byte` (R77). -/
  | sneByte (x : Reg) (kk : Byte)
  /-- 5xy0 `SE Vx, Vy` (R78). -/
  | seReg (x y : Reg)
  /-- 6xkk `LD Vx, byte` (R83). -/
  | ldByte (x : Reg) (kk : Byte)
  /-- 7xkk `ADD Vx, byte` (R84). -/
  | addByte (x : Reg) (kk : Byte)
  /-- 8xy0 `LD Vx, Vy` (R85). -/
  | ldReg (x y : Reg)
  /-- 8xy1 `OR Vx, Vy` (R86). -/
  | orReg (x y : Reg)
  /-- 8xy2 `AND Vx, Vy` (R87). -/
  | andReg (x y : Reg)
  /-- 8xy3 `XOR Vx, Vy` (R88). -/
  | xorReg (x y : Reg)
  /-- 8xy4 `ADD Vx, Vy` (R89). -/
  | addReg (x y : Reg)
  /-- 8xy5 `SUB Vx, Vy` (R90). -/
  | subReg (x y : Reg)
  /-- 8xy6 `SHR Vx, Vy` (R91). -/
  | shrReg (x y : Reg)
  /-- 8xy7 `SUBN Vx, Vy` (R92). -/
  | subnReg (x y : Reg)
  /-- 8xyE `SHL Vx, Vy` (R93). -/
  | shlReg (x y : Reg)
  /-- 9xy0 `SNE Vx, Vy` (R79). -/
  | sneReg (x y : Reg)
  /-- Annn `LD I, addr` (R96). -/
  | ldI (nnn : Addr12)
  /-- Bnnn `JP V0, addr` (R74). -/
  | jpV0 (nnn : Addr12)
  /-- Cxkk `RND Vx, byte` (R94). -/
  | rnd (x : Reg) (kk : Byte)
  /-- Dxyn `DRW Vx, Vy, nibble` (R104). -/
  | drw (x y : Reg) (n : Nibble)
  /-- Ex9E `SKP Vx` (R110). -/
  | skp (x : Reg)
  /-- ExA1 `SKNP Vx` (R111). -/
  | sknp (x : Reg)
  /-- Fx07 `LD Vx, DT` (R107). -/
  | ldVxDT (x : Reg)
  /-- Fx0A `LD Vx, K` (R113). -/
  | ldVxK (x : Reg)
  /-- Fx15 `LD DT, Vx` (R108). -/
  | ldDTVx (x : Reg)
  /-- Fx18 `LD ST, Vx` (R109). -/
  | ldSTVx (x : Reg)
  /-- Fx1E `ADD I, Vx` (R97). -/
  | addI (x : Reg)
  /-- Fx29 `LD F, Vx` (R98). -/
  | ldF (x : Reg)
  /-- Fx33 `LD B, Vx` (R99). -/
  | ldB (x : Reg)
  /-- Fx55 `LD [I], Vx` (R100). -/
  | stRegs (x : Reg)
  /-- Fx65 `LD Vx, [I]` (R101). -/
  | ldRegs (x : Reg)
  deriving DecidableEq, Repr

end Sys2Proof
end

