-- ==== Sys2Proof/WellFormed.lean ====
section
/-! DEFINITION. What is refused before a run. An instruction has nothing to check: "Field values never make a word
unknown once its fixed bits match" (spec/30_encoding.md R63), and the fields' widths are their types. What the spec
does refuse is a configuration whose font does not fit (spec/20_memory.md R42) and a program that is too long
(spec/70_reset_and_hazards.md R137). -/

namespace Sys2Proof

/-- Every term of `Instr` is an instruction of the table: no field value is excluded (R63, R70). -/
abbrev Instr.wellFormed (_ : Instr) : Prop := True

/-- "a `FONT_BASE` must satisfy `FONT_BASE + 80 <= 0x200`" (R42). -/
abbrev Config.wellFormed (c : Config) : Prop := c.fontBase ≤ maxFontBase

/-- A program of at most 3584 bytes (R137). -/
abbrev Launch.programFits (l : Launch) : Prop := l.program.length ≤ maxProgram

/-- A launch the core accepts. -/
abbrev Launch.wellFormed (l : Launch) : Prop := l.cfg.wellFormed ∧ l.programFits

end Sys2Proof
end

