-- ==== Sys2Proof/Decode.lean ====
section
/-! DEFINITION. The decoder, total on any word and any bytes, and the encoder (spec/30_encoding.md R55-R64). -/

namespace Sys2Proof

/-- Why bytes are no instruction. -/
inductive DecodeReject where
  /-- The word is none of the 34 instructions (R64). -/
  | unknownOpcode (bits : Word)
  /-- Fewer than the 2 bytes an instruction has (R55). -/
  | truncated
  deriving DecidableEq, Repr

/-! ### The fields of a word (R56) -/

/-- `op`: w[15:12]. -/
def fieldOp (w : Word) : Nibble := w.extractLsb' 12 4

/-- `x`: w[11:8]. -/
def fieldX (w : Word) : Reg := w.extractLsb' 8 4

/-- `y`: w[7:4]. -/
def fieldY (w : Word) : Reg := w.extractLsb' 4 4

/-- `n`: w[3:0]. -/
def fieldN (w : Word) : Nibble := w.extractLsb' 0 4

/-- `kk`: w[7:0]. -/
def fieldKK (w : Word) : Byte := w.extractLsb' 0 8

/-- `nnn`: w[11:0]. -/
def fieldNNN (w : Word) : Addr12 := w.extractLsb' 0 12

/-! ### Decoding a word (R59) -/

/-- Group 0: only 00E0 and 00EE (R62). -/
def decodeGroup0 (w : Word) : Option Instr :=
  if w = 0x00E0#16 then some .cls
  else if w = 0x00EE#16 then some .ret
  else none

/-- Group 8: the low nibble selects the operation (R60). -/
def decodeGroup8 (w : Word) : Option Instr :=
  match fieldN w with
  | 0x0#4 => some (.ldReg (fieldX w) (fieldY w))
  | 0x1#4 => some (.orReg (fieldX w) (fieldY w))
  | 0x2#4 => some (.andReg (fieldX w) (fieldY w))
  | 0x3#4 => some (.xorReg (fieldX w) (fieldY w))
  | 0x4#4 => some (.addReg (fieldX w) (fieldY w))
  | 0x5#4 => some (.subReg (fieldX w) (fieldY w))
  | 0x6#4 => some (.shrReg (fieldX w) (fieldY w))
  | 0x7#4 => some (.subnReg (fieldX w) (fieldY w))
  | 0xE#4 => some (.shlReg (fieldX w) (fieldY w))
  | _ => none

/-- Group E: `kk` selects the key test (R61). -/
def decodeGroupE (w : Word) : Option Instr :=
  match fieldKK w with
  | 0x9E#8 => some (.skp (fieldX w))
  | 0xA1#8 => some (.sknp (fieldX w))
  | _ => none

/-- Group F: `kk` selects the instruction (R61). -/
def decodeGroupF (w : Word) : Option Instr :=
  match fieldKK w with
  | 0x07#8 => some (.ldVxDT (fieldX w))
  | 0x0A#8 => some (.ldVxK (fieldX w))
  | 0x15#8 => some (.ldDTVx (fieldX w))
  | 0x18#8 => some (.ldSTVx (fieldX w))
  | 0x1E#8 => some (.addI (fieldX w))
  | 0x29#8 => some (.ldF (fieldX w))
  | 0x33#8 => some (.ldB (fieldX w))
  | 0x55#8 => some (.stRegs (fieldX w))
  | 0x65#8 => some (.ldRegs (fieldX w))
  | _ => none

/-- The opcode map (R59); `none` is R63's `Unknown`. The 16 digits all have their arm, so no word meets the last one. -/
def decode? (w : Word) : Option Instr :=
  match fieldOp w with
  | 0x0#4 => decodeGroup0 w
  | 0x1#4 => some (.jp (fieldNNN w))
  | 0x2#4 => some (.call (fieldNNN w))
  | 0x3#4 => some (.seByte (fieldX w) (fieldKK w))
  | 0x4#4 => some (.sneByte (fieldX w) (fieldKK w))
  | 0x5#4 => if fieldN w = 0x0#4 then some (.seReg (fieldX w) (fieldY w)) else none
  | 0x6#4 => some (.ldByte (fieldX w) (fieldKK w))
  | 0x7#4 => some (.addByte (fieldX w) (fieldKK w))
  | 0x8#4 => decodeGroup8 w
  | 0x9#4 => if fieldN w = 0x0#4 then some (.sneReg (fieldX w) (fieldY w)) else none
  | 0xA#4 => some (.ldI (fieldNNN w))
  | 0xB#4 => some (.jpV0 (fieldNNN w))
  | 0xC#4 => some (.rnd (fieldX w) (fieldKK w))
  | 0xD#4 => some (.drw (fieldX w) (fieldY w) (fieldN w))
  | 0xE#4 => decodeGroupE w
  | 0xF#4 => decodeGroupF w
  | _ => none

/-- `Decode(w)`, the rejection named (R63, R64). -/
def decodeWord (w : Word) : Except DecodeReject Instr :=
  match decode? w with
  | some i => .ok i
  | none => .error (.unknownOpcode w)

/-! ### Bytes (spec/20_memory.md R39: the byte at the lower address is the high byte) -/

/-- The word two bytes in memory order make. -/
def wordOfBytes (hi lo : Byte) : Word := hi ++ lo

/-- A word's two bytes in memory order. -/
def bytesOfWord (w : Word) : List Byte := [w.extractLsb' 8 8, w.extractLsb' 0 8]

/-- One instruction off the front of a byte sequence, with the bytes after it (R55: always 2 bytes). -/
def decodeBytes : List Byte → Except DecodeReject (Instr × List Byte)
  | hi :: lo :: rest =>
    match decodeWord (wordOfBytes hi lo) with
    | .ok i => .ok (i, rest)
    | .error r => .error r
  | _ => .error .truncated

/-! ### Encoding (the formats of R57, the fixed digits of R59-R62) -/

/-- Format `NNN`: op n n n. -/
def formatNNN (op : Nibble) (nnn : Addr12) : Word := op ++ nnn

/-- Format `XKK`: op x k k; also format `X`, whose low byte is fixed. -/
def formatXKK (op : Nibble) (x : Reg) (kk : Byte) : Word := op ++ (x ++ kk)

/-- Format `XYN`: D x y n; also format `XY`, whose low digit is fixed. -/
def formatXYN (op : Nibble) (x y : Reg) (n : Nibble) : Word := op ++ (x ++ (y ++ n))

/-- The word of an instruction. -/
def encode : Instr → Word
  | .cls => 0x00E0#16
  | .ret => 0x00EE#16
  | .jp nnn => formatNNN 0x1#4 nnn
  | .call nnn => formatNNN 0x2#4 nnn
  | .seByte x kk => formatXKK 0x3#4 x kk
  | .sneByte x kk => formatXKK 0x4#4 x kk
  | .seReg x y => formatXYN 0x5#4 x y 0x0#4
  | .ldByte x kk => formatXKK 0x6#4 x kk
  | .addByte x kk => formatXKK 0x7#4 x kk
  | .ldReg x y => formatXYN 0x8#4 x y 0x0#4
  | .orReg x y => formatXYN 0x8#4 x y 0x1#4
  | .andReg x y => formatXYN 0x8#4 x y 0x2#4
  | .xorReg x y => formatXYN 0x8#4 x y 0x3#4
  | .addReg x y => formatXYN 0x8#4 x y 0x4#4
  | .subReg x y => formatXYN 0x8#4 x y 0x5#4
  | .shrReg x y => formatXYN 0x8#4 x y 0x6#4
  | .subnReg x y => formatXYN 0x8#4 x y 0x7#4
  | .shlReg x y => formatXYN 0x8#4 x y 0xE#4
  | .sneReg x y => formatXYN 0x9#4 x y 0x0#4
  | .ldI nnn => formatNNN 0xA#4 nnn
  | .jpV0 nnn => formatNNN 0xB#4 nnn
  | .rnd x kk => formatXKK 0xC#4 x kk
  | .drw x y n => formatXYN 0xD#4 x y n
  | .skp x => formatXKK 0xE#4 x 0x9E#8
  | .sknp x => formatXKK 0xE#4 x 0xA1#8
  | .ldVxDT x => formatXKK 0xF#4 x 0x07#8
  | .ldVxK x => formatXKK 0xF#4 x 0x0A#8
  | .ldDTVx x => formatXKK 0xF#4 x 0x15#8
  | .ldSTVx x => formatXKK 0xF#4 x 0x18#8
  | .addI x => formatXKK 0xF#4 x 0x1E#8
  | .ldF x => formatXKK 0xF#4 x 0x29#8
  | .ldB x => formatXKK 0xF#4 x 0x33#8
  | .stRegs x => formatXKK 0xF#4 x 0x55#8
  | .ldRegs x => formatXKK 0xF#4 x 0x65#8

/-- An instruction's two bytes in memory order. -/
def encodeBytes (i : Instr) : List Byte := bytesOfWord (encode i)

/-! ### The opcode table's fixed bits (spec/opcode_table.json, columns match and mask; R63) -/

/-- The table's (match, mask) pairs, in the table's order. -/
def opcodeRows : List (Word × Word) :=
  [(0x00E0#16, 0xFFFF#16), (0x00EE#16, 0xFFFF#16), (0x1000#16, 0xF000#16), (0x2000#16, 0xF000#16),
   (0x3000#16, 0xF000#16), (0x4000#16, 0xF000#16), (0x5000#16, 0xF00F#16), (0x6000#16, 0xF000#16),
   (0x7000#16, 0xF000#16)] ++
  [(0x8000#16, 0xF00F#16), (0x8001#16, 0xF00F#16), (0x8002#16, 0xF00F#16), (0x8003#16, 0xF00F#16),
   (0x8004#16, 0xF00F#16), (0x8005#16, 0xF00F#16), (0x8006#16, 0xF00F#16), (0x8007#16, 0xF00F#16),
   (0x800E#16, 0xF00F#16)] ++
  [(0x9000#16, 0xF00F#16), (0xA000#16, 0xF000#16), (0xB000#16, 0xF000#16), (0xC000#16, 0xF000#16),
   (0xD000#16, 0xF000#16), (0xE09E#16, 0xF0FF#16), (0xE0A1#16, 0xF0FF#16)] ++
  [(0xF007#16, 0xF0FF#16), (0xF00A#16, 0xF0FF#16), (0xF015#16, 0xF0FF#16), (0xF018#16, 0xF0FF#16),
   (0xF01E#16, 0xF0FF#16), (0xF029#16, 0xF0FF#16), (0xF033#16, 0xF0FF#16), (0xF055#16, 0xF0FF#16),
   (0xF065#16, 0xF0FF#16)]

/-- The place of an instruction's row in `opcodeRows`. -/
def Instr.rowIndex : Instr → Fin 34
  | .cls => 0
  | .ret => 1
  | .jp _ => 2
  | .call _ => 3
  | .seByte _ _ => 4
  | .sneByte _ _ => 5
  | .seReg _ _ => 6
  | .ldByte _ _ => 7
  | .addByte _ _ => 8
  | .ldReg _ _ => 9
  | .orReg _ _ => 10
  | .andReg _ _ => 11
  | .xorReg _ _ => 12
  | .addReg _ _ => 13
  | .subReg _ _ => 14
  | .shrReg _ _ => 15
  | .subnReg _ _ => 16
  | .shlReg _ _ => 17
  | .sneReg _ _ => 18
  | .ldI _ => 19
  | .jpV0 _ => 20
  | .rnd _ _ => 21
  | .drw _ _ _ => 22
  | .skp _ => 23
  | .sknp _ => 24
  | .ldVxDT _ => 25
  | .ldVxK _ => 26
  | .ldDTVx _ => 27
  | .ldSTVx _ => 28
  | .addI _ => 29
  | .ldF _ => 30
  | .ldB _ => 31
  | .stRegs _ => 32
  | .ldRegs _ => 33

/-- The (match, mask) pair of an instruction's row. -/
def Instr.row (i : Instr) : Word × Word := opcodeRows[i.rowIndex.val]'i.rowIndex.isLt

/-! ### The host's entry point -/

/-- The instruction read from a table word of `nbits` bits: the table's bits are those of the 16-bit word, laid out as
the hardware stores them (high byte first) and given to the byte decoder. No instruction is longer than 16 bits (R55). -/
def decodeTableWord (nbits w : Nat) : Option Instr :=
  if nbits ≤ 16 then
    match decodeBytes (bytesOfWord (BitVec.ofNat 16 (w % 2 ^ nbits))) with
    | .ok (i, _) => some i
    | .error _ => none
  else none

end Sys2Proof
end

