-- ==== Sys2Proof/Machine/ControlFlow.lean ====
section
/-! DEFINITION. Control transfer and skips (spec/40_control_flow.md). -/

namespace Sys2Proof.Machine

/-- 00EE: the popped value is the new PC; StackUnderflow when SP = 0 (R71). -/
def execRet (s : State) : Host.Outcome State Fault Refusal :=
  match s.pop with
  | some (t, s') => .next (s'.setPc t)
  | none => .next (s.raise ⟨.stackUnderflow, .absent⟩ (some (encode .ret)))

/-- 1nnn (R72). -/
def execJp (nnn : Addr12) (s : State) : Host.Outcome State Fault Refusal :=
  .next (s.setPc (zextAddr nnn))

/-- 2nnn: the address of the next instruction is pushed; StackOverflow when SP = 16 (R73). -/
def execCall (nnn : Addr12) (s : State) : Host.Outcome State Fault Refusal :=
  match s.push (s.pc + 2#16) with
  | some s' => .next (s'.setPc (zextAddr nnn))
  | none => .next (s.raise ⟨.stackOverflow, .absent⟩ (some (encode (.call nnn))))

/-- Bnnn (R74). -/
def execJpV0 (nnn : Addr12) (s : State) : Host.Outcome State Fault Refusal :=
  .next (s.setPc (s.offsetTarget nnn))

/-- 3xkk (R76). -/
def execSeByte (x : Reg) (kk : Byte) (s : State) : Host.Outcome State Fault Refusal :=
  .next (s.skipIf (s.getV x == kk))

/-- 4xkk (R77). -/
def execSneByte (x : Reg) (kk : Byte) (s : State) : Host.Outcome State Fault Refusal :=
  .next (s.skipIf (s.getV x != kk))

/-- 5xy0 (R78). -/
def execSeReg (x y : Reg) (s : State) : Host.Outcome State Fault Refusal :=
  .next (s.skipIf (s.getV x == s.getV y))

/-- 9xy0 (R79). -/
def execSneReg (x y : Reg) (s : State) : Host.Outcome State Fault Refusal :=
  .next (s.skipIf (s.getV x != s.getV y))

end Sys2Proof.Machine
end

