-- ==== Sys2Proof/Machine/Graphics.lean ====
section
/-! DEFINITION. The sprite-draw unit (spec/43_display.md). -/

namespace Sys2Proof.Machine

/-- 00E0 (R102). -/
def execCls (s : State) : Host.Outcome State Fault Refusal :=
  .next (s.drawn Display.blank).advance

/-- Dxyn: XOR n bytes from I onto the display at (V[x], V[y]); VF is the collision bit (R104). -/
def execDrw (x y : Reg) (n : Nibble) (s : State) : Host.Outcome State Fault Refusal :=
  guarded (readTrap s.dataBase n.toNat) (encode (.drw x y n)) s
    (.next
      (let drawing := drawSprite (s.drawColumn x) (s.drawRowIndex y) (s.readBytes s.dataBase n.toNat) s.disp
       ((s.drawn drawing.1).setV VF (flagByte drawing.2)).advance))

end Sys2Proof.Machine
end

