-- ==== Sys2Proof/Machine/IndexMemory.lean ====
section
/-! DEFINITION. The index register, loads and stores (spec/42_index_memory.md). -/

namespace Sys2Proof.Machine

/-- Annn (R96). -/
def execLdI (nnn : Addr12) (s : State) : Host.Outcome State Fault Refusal :=
  .next (s.setI (zextAddr nnn)).advance

/-- Fx1E: 16-bit wraparound, no flag (R97). -/
def execAddI (x : Reg) (s : State) : Host.Outcome State Fault Refusal :=
  .next (s.setI (s.i + zextByte (s.getV x))).advance

/-- Fx29: the glyph of digit V[x] (R98). -/
def execLdF (x : Reg) (s : State) : Host.Outcome State Fault Refusal :=
  guarded (s.digitTrap x) (encode (.ldF x)) s
    (.next (s.setI (glyphAddr s.cfg (s.getV x))).advance)

/-- Fx33: the decimal digits of V[x] at I, I+1, I+2 (R99). -/
def execLdB (x : Reg) (s : State) : Host.Outcome State Fault Refusal :=
  guarded (writeTrap s.cfg s.dataBase 3) (encode (.ldB x)) s
    (.next (s.writeBytes s.dataBase (bcdDigits (s.getV x))).advance)

/-- Fx55: V[0] .. V[x] to memory at I (R100). -/
def execStRegs (x : Reg) (s : State) : Host.Outcome State Fault Refusal :=
  guarded (writeTrap s.cfg s.dataBase (regCount x)) (encode (.stRegs x)) s
    (.next ((s.writeBytes s.dataBase (s.lowRegs x)).postIncrement x).advance)

/-- Fx65: V[0] .. V[x] from memory at I (R101). -/
def execLdRegs (x : Reg) (s : State) : Host.Outcome State Fault Refusal :=
  guarded (readTrap s.dataBase (regCount x)) (encode (.ldRegs x)) s
    (.next ((s.setRegs (loadRegs 0 (s.readBytes s.dataBase (regCount x)) s.v)).postIncrement x).advance)

end Sys2Proof.Machine
end

