-- ==== Sys2Proof/Machine/TimersKeys.lean ====
section
/-! DEFINITION. Timer access and the keypad instructions (spec/44_timers_keys.md). -/

namespace Sys2Proof.Machine

/-- Fx07 (R107). -/
def execLdVxDT (x : Reg) (s : State) : Host.Outcome State Fault Refusal :=
  .next (s.setV x s.dt).advance

/-- Fx15 (R108). -/
def execLdDTVx (x : Reg) (s : State) : Host.Outcome State Fault Refusal :=
  .next (s.setDt (s.getV x)).advance

/-- Fx18 (R109). -/
def execLdSTVx (x : Reg) (s : State) : Host.Outcome State Fault Refusal :=
  .next (s.setSt (s.getV x)).advance

/-- Ex9E: skip if key V[x] is pressed (R110). -/
def execSkp (x : Reg) (s : State) : Host.Outcome State Fault Refusal :=
  guarded (s.digitTrap x) (encode (.skp x)) s (.next (s.skipIf (s.keyPressed (s.getV x))))

/-- ExA1: skip if key V[x] is not pressed (R111). -/
def execSknp (x : Reg) (s : State) : Host.Outcome State Fault Refusal :=
  guarded (s.digitTrap x) (encode (.sknp x)) s (.next (s.skipIf (!s.keyPressed (s.getV x))))

/-- Fx0A: wait for a key-press edge; the lowest key with one is stored and consumed (R113). -/
def execLdVxK (x : Reg) (s : State) : Host.Outcome State Fault Refusal :=
  match lowestSet? s.keyEdges with
  | none => .next (s.setStatus .awaitKey)
  | some k => .next (((s.setV x (BitVec.ofNat 8 k)).consumeKey k).setStatus .running).advance

end Sys2Proof.Machine
end

