-- ==== Sys2Proof/Machine/HostEvents.lean ====
section
/-! DEFINITION. The host's side: the events between steps and what the host reads (spec/60_exceptions.md R122-R128). -/

namespace Sys2Proof.Machine

/-! ### Events. In HALTED each changes nothing (R117). -/

/-- A timer's decrement: by 1 if non-zero (R122). -/
def countDown (t : Byte) : Byte := if t = 0x00#8 then t else t - 1#8

/-- `Tick()` (R122). -/
def State.tick (s : State) : State :=
  if s.status = .halted then s else { s with dt := countDown s.dt, st := countDown s.st }

/-- `KeyUpdate(new)` (R125). -/
def State.keyUpdate (s : State) (new : Word) : State :=
  if s.status = .halted then s else { s with keysPrev := s.keys, keys := new }

/-- The present acknowledge: `DRAW_FLAG <- 0` (R126). -/
def State.presentAck (s : State) : State :=
  if s.status = .halted then s else { s with drawFlag := false }

/-! ### Outputs -/

/-- The tone output: `ST != 0` (R124). -/
def State.tone (s : State) : Bool := s.st != 0x00#8

/-- What the host may present: the whole display, when DRAW_FLAG = 1 (R126). -/
def State.presentable (s : State) : Option Display := if s.drawFlag then some s.disp else none

/-! ### The pending events (log entry 5) -/

/-- The next event: the oldest pending one; with none pending, an instruction step. -/
def State.nextEvent (s : State) : Event := s.events.headD .step

/-- The state once its next event has been taken off the list. -/
def State.popEvent (s : State) : State := { s with events := s.events.tail }

end Sys2Proof.Machine
end

