-- ==== Sys2Proof/Machine/Cycle.lean ====
section
/-! DEFINITION. The step cycle (spec/30_encoding.md R66-R69) and one event of the core (spec/00_scope.md R13). -/

namespace Sys2Proof.Machine

/-- The check of the two fetch addresses, PC and PC + 1 (R66). -/
def State.fetchTrap (s : State) : Option Trap := readTrap s.pc.toNat 2

/-- `MEM[PC] || MEM[PC + 1]` (spec/20_memory.md R39). -/
def State.fetchWord (s : State) : Word :=
  wordOfBytes (s.readByte s.pc.toNat) (s.readByte (s.pc.toNat + 1))

/-- `Step()` (R66): fetch, decode, execute. AWAIT_KEY steps like RUNNING (R69); HALTED takes no step (R117). -/
def cpuStep (s : State) : Host.Outcome State Fault Refusal :=
  if s.status = .halted then .fault .halted
  else
    match s.fetchTrap with
    | some t => .next (s.raise t none)
    | none =>
      match decodeWord s.fetchWord with
      | .error _ => .next (s.raise ⟨.unknownOpcode, .absent⟩ (some s.fetchWord))
      | .ok i => exec i s

/-- One event (R13). -/
def react (e : Event) (s : State) : Host.Outcome State Fault Refusal :=
  match e with
  | .step => cpuStep s
  | .tick => .next s.tick
  | .keyUpdate new => .next (s.keyUpdate new)
  | .presentAck => .next s.presentAck

/-- Where step fetches its next instruction; an address with no room for 2 bytes gives way to 0x200. -/
def State.fetchPlace (s : State) : Word := if s.pc.toNat + 1 < memSize then s.pc else 0x200#16

/-- A word placed where the next step fetches, and the core made ready to fetch it: a halted core is running again, and
a pending event that is not a step is preceded by one. Nothing of this happens in a running machine (log entry 8). -/
def State.placeWord (s : State) (w : Word) : State :=
  { s with
    mem := Memory.setBytes s.cfg s.mem s.fetchPlace.toNat (bytesOfWord w)
    pc := s.fetchPlace
    status := if s.status = .halted then .running else s.status
    fault := if s.status = .halted then none else s.fault
    events := if s.nextEvent = .step then s.events else .step :: s.events }

end Sys2Proof.Machine
end

