-- ==== Sys2Proof/Machine/Step.lean ====
section
/-! DEFINITION. One step of the machine: one event of the core (spec/00_scope.md R13), the oldest pending one, and with
none pending an instruction step (log entry 5). -/

namespace Sys2Proof.Machine

def step (s : State) : Host.Outcome State Fault Refusal := react s.nextEvent s.popEvent

/-- The state with a table word stored where step fetches next (its bits above `nbits` are 0; no instruction is longer
than 16 bits, spec/30_encoding.md R55). -/
def State.withFetchWord (s : State) (nbits w : Nat) : State :=
  s.placeWord (BitVec.ofNat 16 (w % 2 ^ nbits))

end Sys2Proof.Machine
end

