-- ==== Sys2Proof/Machine/Boot.lean ====
section
/-! DEFINITION. Reset and program load (spec/70_reset_and_hazards.md R136-R138): how a machine comes to be. -/

namespace Sys2Proof.Machine

/-- Why no machine is started. -/
inductive LaunchError where
  /-- `LoadError`: the program is longer than 3584 bytes (R137). -/
  | loadError (length : Nat)
  /-- FONT_BASE above 0x1B0: "a model refuses any other value before reset" (spec/20_memory.md R42). -/
  | fontDoesNotFit (fontBase : Nat)
  deriving DecidableEq, Repr

/-- The program's bytes "copied verbatim into Memory starting at address 0x200", unchecked (R137). -/
def State.loadProgram (s : State) (program : List Byte) : State := s.writeBytes programBase program

/-- `Reset(program)` (R136). -/
def boot (l : Launch) : Except LaunchError State :=
  if ¬ l.cfg.wellFormed then .error (.fontDoesNotFit l.cfg.fontBase)
  else if ¬ l.programFits then .error (.loadError l.program.length)
  else .ok ((State.launch l.cfg l.resetV l.resetI l.resetStack).loadProgram l.program)

end Sys2Proof.Machine
end

