-- ==== Sys2Proof/Safety.lean ====
section
/-! DEFINITION. What a safe run is, the machine's invariant, and the terms the statements are written in. -/

namespace Sys2Proof.Machine

/-! ### Safe runs -/

/-- A state that has taken no fault. -/
abbrev State.live (s : State) : Prop := s.status ≠ .halted

/-- k events from s, every one answered by a next state, and no fault taken on the way. -/
def SafeFor : Nat → State → Prop
  | 0, s => s.live
  | k + 1, s => s.live ∧ ∃ t, step s = .next t ∧ SafeFor k t

/-- The instructions of a list, run one after the other; the first fault or refusal ends it. -/
def execList : List Instr → State → Host.Outcome State Fault Refusal
  | [], s => .next s
  | i :: is, s =>
    match exec i s with
    | .next t => execList is t
    | .fault r => .fault r
    | .refused r => .refused r

/-! ### The invariant -/

/-- The instruction PC addresses, where the fetch and the decode succeed. -/
def State.instrAtPc (s : State) : Option Instr :=
  match s.fetchTrap with
  | some _ => none
  | none => decode? s.fetchWord

/-- What holds at reset and after every event. -/
structure State.Inv (s : State) : Prop where
  /-- The memory is in canonical form. -/
  memCanonical : Memory.wf s.cfg s.mem
  /-- A fault record stands exactly in HALTED (spec/10_state.md R31). -/
  haltedIffFault : s.status = .halted ↔ s.fault.isSome = true
  /-- "PC still addresses the faulting instruction" (spec/60_exceptions.md R116). -/
  faultAtPc : ∀ r, s.fault = some r → r.pc = s.pc
  /-- The record's word is the one at PC, absent for a fetch fault (spec/10_state.md R31). -/
  faultBits : ∀ r, s.fault = some r → r.bits = if s.fetchTrap = none then some s.fetchWord else none
  /-- In AWAIT_KEY "PC still addresses that Fx0A" (spec/10_state.md R30). -/
  awaitsAtFx0A : s.status = .awaitKey → ∃ x, s.instrAtPc = some (.ldVxK x)

/-! ### Frames -/

/-- Every byte of memory reads as before. -/
abbrev KeepsMemory (s t : State) : Prop := ∀ a, t.readByte a = s.readByte a

/-- Every byte outside the n bytes from base reads as before. -/
abbrev KeepsMemoryOutside (base n : Nat) (s t : State) : Prop :=
  ∀ a, a < base ∨ base + n ≤ a → t.readByte a = s.readByte a

/-- Every general register outside a list is as before. -/
abbrev KeepsRegsBut (dst : List Reg) (s t : State) : Prop := ∀ r, r ∉ dst → t.getV r = s.getV r

/-- A completion that writes general registers of a list and moves to the next instruction, and nothing else. -/
abbrev OnlyRegs (dst : List Reg) (s t : State) : Prop :=
  KeepsRegsBut dst s t ∧ KeepsMemory s t ∧ t.pc = s.pc + 2#16 ∧ t = { s with v := t.v, pc := t.pc }

/-- A completion that changes PC alone. -/
abbrev OnlyPc (s t : State) : Prop := KeepsMemory s t ∧ t = { s with pc := t.pc }

/-- The state after a fault of an instruction whose word is bits (spec/60_exceptions.md R116). -/
abbrev faulted (s : State) (kind : FaultKind) (bits : Option Word) (info : FaultInfo) : State :=
  { s with status := .halted, fault := some { kind := kind, pc := s.pc, bits := bits, info := info } }

/-- The lowest address above 0xFFF of a run of addresses from base that reaches past it. -/
abbrev firstBeyond (base : Nat) : Nat := max base 0x1000

/-! ### The tables of spec/10_state.md -/

/-- R18: the general registers an instruction writes. -/
def mayWrite : Instr → Reg → Prop
  | .ldByte x _, r | .addByte x _, r | .ldReg x _, r | .orReg x _, r | .andReg x _, r | .xorReg x _, r
  | .rnd x _, r | .ldVxDT x, r | .ldVxK x, r => r = x
  | .addReg x _, r | .subReg x _, r | .subnReg x _, r | .shrReg x _, r | .shlReg x _, r => r = x ∨ r = VF
  | .drw _ _ _, r => r = VF
  | .ldRegs x, r => r.toNat ≤ x.toNat
  | .cls, _ | .ret, _ | .jp _, _ | .call _, _ | .seByte _ _, _ | .sneByte _ _, _ | .seReg _ _, _
  | .sneReg _ _, _ | .ldI _, _ | .jpV0 _, _ | .skp _, _ | .sknp _, _ | .ldDTVx _, _ | .ldSTVx _, _
  | .addI _, _ | .ldF _, _ | .ldB _, _ | .stRegs _, _ => False

/-- R22: the PC an instruction of s that takes no fault leaves. -/
def pcAfter (s : State) : Instr → Word → Prop
  | .jp nnn, pc | .call nnn, pc => pc.toNat = nnn.toNat
  | .jpV0 nnn, pc => pc.toNat = nnn.toNat + (s.getV 0).toNat
  | .ret, pc => s.stack[s.sp.val - 1]? = some pc
  | .seByte x kk, pc => pc = if s.getV x = kk then s.pc + 4#16 else s.pc + 2#16
  | .sneByte x kk, pc => pc = if s.getV x = kk then s.pc + 2#16 else s.pc + 4#16
  | .seReg x y, pc => pc = if s.getV x = s.getV y then s.pc + 4#16 else s.pc + 2#16
  | .sneReg x y, pc => pc = if s.getV x = s.getV y then s.pc + 2#16 else s.pc + 4#16
  | .skp x, pc => pc = if s.keys.getLsbD (s.getV x).toNat then s.pc + 4#16 else s.pc + 2#16
  | .sknp x, pc => pc = if s.keys.getLsbD (s.getV x).toNat then s.pc + 2#16 else s.pc + 4#16
  | .ldVxK _, pc => pc = if s.keys &&& ~~~s.keysPrev = 0#16 then s.pc else s.pc + 2#16
  | .cls, pc | .ldByte _ _, pc | .addByte _ _, pc | .ldReg _ _, pc | .orReg _ _, pc | .andReg _ _, pc
  | .xorReg _ _, pc | .addReg _ _, pc | .subReg _ _, pc | .shrReg _ _, pc | .subnReg _ _, pc | .shlReg _ _, pc
  | .ldI _, pc | .rnd _ _, pc | .drw _ _ _, pc | .ldVxDT _, pc | .ldDTVx _, pc | .ldSTVx _, pc | .addI _, pc
  | .ldF _, pc | .ldB _, pc | .stRegs _, pc | .ldRegs _, pc => pc = s.pc + 2#16

/-! ### Sprites -/

/-- Whether the n-byte sprite of a memory, drawn from (row cy, column cx), has a 1 bit on the pixel (r, c): the pixel is
(r - cy) mod 32 rows down and (c - cx) mod 64 columns right of the start (spec/43_display.md R103, R104). -/
def spriteBit (byteAt : Nat → Byte) (n cy cx : Nat) (r : Fin 32) (c : Fin 64) : Bool :=
  let down := (r.val + 32 - cy) % 32
  let right := (c.val + 64 - cx) % 64
  decide (down < n) && decide (right < 8) && (byteAt down).getLsbD (7 - right)

/-- `spriteBit` of the sprite Dxyn reads in s. -/
def State.spriteBit (s : State) (x y : Reg) (n : Nibble) : Fin 32 → Fin 64 → Bool :=
  Sys2Proof.Machine.spriteBit (fun j => s.readByte (s.i.toNat + j)) n.toNat ((s.getV y).toNat % 32)
    ((s.getV x).toNat % 64)

end Sys2Proof.Machine
end

