-- ==== Sys2Proof/Certificates/Slice0/Obligations.lean ====
section
/-! DEFINITION. The statements for the provers. Each docstring names the rule of spec/ it formalises; where a clause rests
on a decision the spec marks as its own (92_eei_decisions.md D<n>) or on a log entry, the docstring says so. -/

open Sys2Proof Sys2Proof.Machine

/-! ## Encoding -/

/-- Words written out from 30_encoding.md R57-R61, one or more for each family, and what they stand for
(95_test_vectors.md 2.1). -/
def Obligations.KnownWordsDecode : Prop :=
  decodeWord 0x00E0#16 = .ok .cls ∧ decodeWord 0x00EE#16 = .ok .ret ∧ decodeWord 0x2ABC#16 = .ok (.call 0xABC#12) ∧
    decodeWord 0x3A5C#16 = .ok (.seByte 0xA#4 0x5C#8) ∧ decodeWord 0x8AB5#16 = .ok (.subReg 0xA#4 0xB#4) ∧
    decodeWord 0x8ABE#16 = .ok (.shlReg 0xA#4 0xB#4) ∧ decodeWord 0xAABC#16 = .ok (.ldI 0xABC#12) ∧
    decodeWord 0xDAB5#16 = .ok (.drw 0xA#4 0xB#4 0x5#4) ∧ decodeWord 0xEAA1#16 = .ok (.sknp 0xA#4) ∧
    decodeWord 0xFA33#16 = .ok (.ldB 0xA#4) ∧ decodeWord 0x0123#16 = .error (.unknownOpcode 0x0123#16)

/-- Decode of encode, for every instruction and every value of its fields, as a word and as bytes in memory order. -/
def Obligations.EncodeThenDecodeGivesTheInstruction : Prop :=
  ∀ (i : Instr) (rest : List Byte),
    decodeWord (encode i) = .ok i ∧ decodeBytes (encodeBytes i ++ rest) = .ok (i, rest)

/-- A word that decodes is its instruction's encoding: no bit of it is dropped (R70), so the word a fault records is the
one fetched. -/
def Obligations.DecodeThenEncodeGivesTheWord : Prop :=
  ∀ (w : Word) (i : Instr), decodeWord w = .ok i → encode i = w

/-- R63, with the rows of spec/opcode_table.json: a word matches a row exactly when it decodes to that row's instruction,
no two rows match one word, and every word decodes to an instruction or is unknown. -/
def Obligations.DecodeFollowsTheOpcodeTable : Prop :=
  (∀ (w : Word) (k : Fin 34),
    w &&& (opcodeRows[k.val]'k.isLt).2 = (opcodeRows[k.val]'k.isLt).1 ↔
      ∃ i, decodeWord w = .ok i ∧ i.rowIndex = k) ∧
  (∀ (w : Word) (j k : Fin 34),
    w &&& (opcodeRows[j.val]'j.isLt).2 = (opcodeRows[j.val]'j.isLt).1 →
      w &&& (opcodeRows[k.val]'k.isLt).2 = (opcodeRows[k.val]'k.isLt).1 → j = k) ∧
  (∀ w : Word, (∃ i, decodeWord w = .ok i) ∨ decodeWord w = .error (.unknownOpcode w))

/-- R64's list of the unknown words (decisions D17, D18). -/
def Obligations.UnknownWordsAreExactlyTheListed : Prop :=
  ∀ w : Word,
    decodeWord w = .error (.unknownOpcode w) ↔
      (fieldOp w = 0x0#4 ∧ w ≠ 0x00E0#16 ∧ w ≠ 0x00EE#16) ∨
      ((fieldOp w = 0x5#4 ∨ fieldOp w = 0x9#4) ∧ fieldN w ≠ 0x0#4) ∨
      (fieldOp w = 0x8#4 ∧ fieldN w ∈ [0x8#4, 0x9#4, 0xA#4, 0xB#4, 0xC#4, 0xD#4, 0xF#4]) ∨
      (fieldOp w = 0xE#4 ∧ fieldKK w ∉ [0x9E#8, 0xA1#8]) ∨
      (fieldOp w = 0xF#4 ∧
        fieldKK w ∉ [0x07#8, 0x0A#8, 0x15#8, 0x18#8, 0x1E#8, 0x29#8, 0x33#8, 0x55#8, 0x65#8])

/-! ## The step -/

/-- R66, R68: a step runs the instruction its two bytes decode to, the high byte at PC (R39). The step first takes its
event off the host's list (log entry 5: the list is the model's own). -/
def Obligations.StepRunsTheDecodedInstruction : Prop :=
  ∀ (s : State) (i : Instr),
    s.status ≠ .halted → s.nextEvent = .step → s.pc.toNat + 1 ≤ 0xFFF →
    decodeWord (s.readByte s.pc.toNat ++ s.readByte (s.pc.toNat + 1)) = .ok i →
    step s = exec i { s with events := s.events.tail }

/-- R66: a fetch of a byte above 0xFFF faults, with no word recorded (decision D36; the step's event: log
entry 5). -/
def Obligations.FetchBeyondMemoryFaults : Prop :=
  ∀ s : State,
    s.status ≠ .halted → s.nextEvent = .step → 0xFFF < s.pc.toNat + 1 →
    step s = .next (faulted { s with events := s.events.tail } .memoryOutOfRange none (.addr (firstBeyond s.pc.toNat)))

/-- R64, R116: executing an unknown word faults and changes nothing else (decisions D18, D20; the step's event: log
entry 5). -/
def Obligations.UnknownWordFaults : Prop :=
  ∀ (s : State) (w : Word),
    s.status ≠ .halted → s.nextEvent = .step → s.pc.toNat + 1 ≤ 0xFFF →
    s.readByte s.pc.toNat ++ s.readByte (s.pc.toNat + 1) = w →
    decodeWord w = .error (.unknownOpcode w) →
    step s = .next (faulted { s with events := s.events.tail } .unknownOpcode (some w) .absent)

/-- R117: HALTED is terminal (decision D31): no instruction step, and the host's events change nothing. That a step asked
for there answers the model fault `halted` is log entry 6; the list of events, log entry 5. -/
def Obligations.HaltedIsTerminal : Prop :=
  ∀ s : State, s.status = .halted →
    (s.nextEvent = .step → step s = .fault .halted) ∧
    (s.nextEvent ≠ .step → step s = .next { s with events := s.events.tail })

/-- A step stops in one case only, and is never refused: every word is an instruction that runs or a fault that is taken
(R64, R117; log entries 5 and 6). -/
def Obligations.StepStopsOnlyWhenHalted : Prop :=
  ∀ s : State, (¬∃ t, step s = .next t) ↔ s.status = .halted ∧ s.nextEvent = .step

/-! ## Control flow -/

/-- R71. -/
def Obligations.ReturnPopsPc : Prop :=
  ∀ s : State,
    encode .ret = 0x00EE#16 ∧
    (s.sp.val = 0 → exec .ret s = .next (faulted s .stackUnderflow (some 0x00EE#16) .absent)) ∧
    (0 < s.sp.val →
      ∃ t, exec .ret s = .next t ∧ s.stack[s.sp.val - 1]? = some t.pc ∧ t.sp.val = s.sp.val - 1 ∧
        KeepsMemory s t ∧ t = { s with pc := t.pc, sp := t.sp })

/-- R72; a jump to its own address leaves the state as it is. -/
def Obligations.JumpSetsPc : Prop :=
  ∀ (s : State) (nnn : Addr12),
    encode (.jp nnn) = formatNNN 0x1#4 nnn ∧
    (∃ t, exec (.jp nnn) s = .next t ∧ t.pc.toNat = nnn.toNat ∧ OnlyPc s t) ∧
    (s.pc.toNat = nnn.toNat → exec (.jp nnn) s = .next s)

/-- R73. -/
def Obligations.CallPushesTheNextAddress : Prop :=
  ∀ (s : State) (nnn : Addr12),
    encode (.call nnn) = formatNNN 0x2#4 nnn ∧
    (s.sp.val = 16 →
      exec (.call nnn) s = .next (faulted s .stackOverflow (some (formatNNN 0x2#4 nnn)) .absent)) ∧
    (s.sp.val < 16 →
      ∃ t, exec (.call nnn) s = .next t ∧ t.pc.toNat = nnn.toNat ∧ t.sp.val = s.sp.val + 1 ∧
        t.stack[s.sp.val]? = some (s.pc + 2#16) ∧ (∀ j, j ≠ s.sp.val → t.stack[j]? = s.stack[j]?) ∧
        KeepsMemory s t ∧ t = { s with pc := t.pc, sp := t.sp, stack := t.stack })

/-- R73, R71, R80: calls nest to depth 16, the next one overflows, and as many returns come back to the instruction after
the first call. The run is of the instructions themselves, one after the other. -/
def Obligations.NestedCallsReturnInOrder : Prop :=
  ∀ (targets : List Addr12) (s : State), s.sp.val + targets.length ≤ 16 →
    ∃ t, execList (targets.map .call) s = .next t ∧ t.sp.val = s.sp.val + targets.length ∧
      (∀ nnn, t.sp.val = 16 →
        exec (.call nnn) t = .next (faulted t .stackOverflow (some (encode (.call nnn))) .absent)) ∧
      ∃ u, execList (List.replicate targets.length .ret) t = .next u ∧ u.sp = s.sp ∧
        (targets ≠ [] → u.pc = s.pc + 2#16) ∧ (∀ j, j < s.sp.val → u.stack[j]? = s.stack[j]?) ∧
        u = { s with pc := u.pc, stack := u.stack }

/-- R74 (decision D19: the target is not masked to 12 bits). -/
def Obligations.OffsetJumpAddsV0 : Prop :=
  ∀ (s : State) (nnn : Addr12),
    ∃ t, exec (.jpV0 nnn) s = .next t ∧ t.pc.toNat = nnn.toNat + (s.getV 0x0#4).toNat ∧ t.pc.toNat ≤ 0x10FE ∧
      OnlyPc s t

/-- R76, R77. -/
def Obligations.SkipsComparingAByte : Prop :=
  ∀ (s : State) (x : Reg) (kk : Byte),
    (encode (.seByte x kk) = formatXKK 0x3#4 x kk ∧
      ∃ t, exec (.seByte x kk) s = .next t ∧
        t.pc = (if s.getV x = kk then s.pc + 4#16 else s.pc + 2#16) ∧ OnlyPc s t) ∧
    (encode (.sneByte x kk) = formatXKK 0x4#4 x kk ∧
      ∃ t, exec (.sneByte x kk) s = .next t ∧
        t.pc = (if s.getV x ≠ kk then s.pc + 4#16 else s.pc + 2#16) ∧ OnlyPc s t)

/-- R78, R79; with another low digit the words are unknown. -/
def Obligations.SkipsComparingRegisters : Prop :=
  ∀ (s : State) (x y : Reg),
    (encode (.seReg x y) = formatXYN 0x5#4 x y 0x0#4 ∧
      (∀ n, n ≠ 0x0#4 → decodeWord (formatXYN 0x5#4 x y n) = .error (.unknownOpcode (formatXYN 0x5#4 x y n))) ∧
      ∃ t, exec (.seReg x y) s = .next t ∧
        t.pc = (if s.getV x = s.getV y then s.pc + 4#16 else s.pc + 2#16) ∧ OnlyPc s t) ∧
    (encode (.sneReg x y) = formatXYN 0x9#4 x y 0x0#4 ∧
      (∀ n, n ≠ 0x0#4 → decodeWord (formatXYN 0x9#4 x y n) = .error (.unknownOpcode (formatXYN 0x9#4 x y n))) ∧
      ∃ t, exec (.sneReg x y) s = .next t ∧
        t.pc = (if s.getV x ≠ s.getV y then s.pc + 4#16 else s.pc + 2#16) ∧ OnlyPc s t)

/-! ## The ALU -/

/-- R83, R85. -/
def Obligations.LoadWritesVx : Prop :=
  ∀ (s : State) (x : Reg),
    (∀ kk, encode (.ldByte x kk) = formatXKK 0x6#4 x kk ∧
      ∃ t, exec (.ldByte x kk) s = .next t ∧ t.getV x = kk ∧ OnlyRegs [x] s t) ∧
    (∀ y, encode (.ldReg x y) = formatXYN 0x8#4 x y 0x0#4 ∧
      ∃ t, exec (.ldReg x y) s = .next t ∧ t.getV x = s.getV y ∧ OnlyRegs [x] s t)

/-- R84: the sum wraps, and no flag is written. -/
def Obligations.AddByteWrapsWithoutFlag : Prop :=
  ∀ (s : State) (x : Reg) (kk : Byte),
    encode (.addByte x kk) = formatXKK 0x7#4 x kk ∧
    ∃ t, exec (.addByte x kk) s = .next t ∧ (t.getV x).toNat = ((s.getV x).toNat + kk.toNat) % 256 ∧
      (x ≠ VF → t.getV VF = s.getV VF) ∧ OnlyRegs [x] s t

/-- R86, R87, R88, bit by bit; VF is unchanged unless it is Vx (decision D7). -/
def Obligations.LogicalOperationsWithoutFlag : Prop :=
  ∀ (s : State) (x y : Reg),
    (∃ t, exec (.orReg x y) s = .next t ∧
      (∀ k, k < 8 → (t.getV x).getLsbD k = ((s.getV x).getLsbD k || (s.getV y).getLsbD k)) ∧ OnlyRegs [x] s t) ∧
    (∃ t, exec (.andReg x y) s = .next t ∧
      (∀ k, k < 8 → (t.getV x).getLsbD k = ((s.getV x).getLsbD k && (s.getV y).getLsbD k)) ∧ OnlyRegs [x] s t) ∧
    (∃ t, exec (.xorReg x y) s = .next t ∧
      (∀ k, k < 8 → (t.getV x).getLsbD k = ((s.getV x).getLsbD k != (s.getV y).getLsbD k)) ∧ OnlyRegs [x] s t)

/-- R89: the sum modulo 256, and VF the carry: 1 when the sum exceeds 255. For x = F the flag is what stays (R82,
decision D8). -/
def Obligations.AddSetsCarry : Prop :=
  ∀ (s : State) (x y : Reg),
    ∃ t, exec (.addReg x y) s = .next t ∧
      (x ≠ VF → (t.getV x).toNat = ((s.getV x).toNat + (s.getV y).toNat) % 256) ∧
      t.getV VF = (if 255 < (s.getV x).toNat + (s.getV y).toNat then 0x01#8 else 0x00#8) ∧
      OnlyRegs [x, VF] s t

/-- R90, R92: the difference modulo 256, and VF 1 when no borrow occurs, equal operands too. For x = F the flag is what
stays (R82, decision D8). -/
def Obligations.SubtractionsSetNoBorrow : Prop :=
  ∀ (s : State) (x y : Reg),
    (∃ t, exec (.subReg x y) s = .next t ∧
      (x ≠ VF → (t.getV x).toNat = ((s.getV x).toNat + 256 - (s.getV y).toNat) % 256) ∧
      t.getV VF = (if (s.getV y).toNat ≤ (s.getV x).toNat then 0x01#8 else 0x00#8) ∧ OnlyRegs [x, VF] s t) ∧
    (∃ t, exec (.subnReg x y) s = .next t ∧
      (x ≠ VF → (t.getV x).toNat = ((s.getV y).toNat + 256 - (s.getV x).toNat) % 256) ∧
      t.getV VF = (if (s.getV x).toNat ≤ (s.getV y).toNat then 0x01#8 else 0x00#8) ∧ OnlyRegs [x, VF] s t)

/-- R91, R93, in both shift modes (decision D5): the source halved or doubled, and VF the bit shifted out. For x = F the
flag is what stays (R82, decision D8). -/
def Obligations.ShiftsMoveOneBitOut : Prop :=
  ∀ (s : State) (x y : Reg) (src : Byte),
    (s.cfg.shiftMode = .vxOnly ∧ src = s.getV x ∨ s.cfg.shiftMode = .vySource ∧ src = s.getV y) →
    (∃ t, exec (.shrReg x y) s = .next t ∧ (x ≠ VF → (t.getV x).toNat = src.toNat / 2) ∧
      (t.getV VF).toNat = src.toNat % 2 ∧ OnlyRegs [x, VF] s t) ∧
    (∃ t, exec (.shlReg x y) s = .next t ∧ (x ≠ VF → (t.getV x).toNat = src.toNat * 2 % 256) ∧
      (t.getV VF).toNat = src.toNat / 128 ∧ OnlyRegs [x, VF] s t)

/-- R94: a fresh random byte under the mask. The byte is a free value, `Config.rnd` at a counter (log entry 4); the statement
holds whatever it is. -/
def Obligations.RandomByteUnderMask : Prop :=
  ∀ (s : State) (x : Reg) (kk : Byte),
    encode (.rnd x kk) = formatXKK 0xC#4 x kk ∧
    ∃ t, exec (.rnd x kk) s = .next t ∧ t.getV x = Config.rnd s.draws &&& kk ∧ t.draws = s.draws + 1 ∧
      KeepsRegsBut [x] s t ∧ KeepsMemory s t ∧ t.pc = s.pc + 2#16 ∧
      t = { s with v := t.v, pc := t.pc, draws := t.draws }

/-! ## The index register, loads and stores -/

/-- R96. -/
def Obligations.LoadIndexImmediate : Prop :=
  ∀ (s : State) (nnn : Addr12),
    encode (.ldI nnn) = formatNNN 0xA#4 nnn ∧
    ∃ t, exec (.ldI nnn) s = .next t ∧ t.i.toNat = nnn.toNat ∧ KeepsMemory s t ∧ t.pc = s.pc + 2#16 ∧
      t = { s with i := t.i, pc := t.pc }

/-- R97: 16-bit wraparound, no fault, and VF unchanged (decision D9). -/
def Obligations.AddToIndexWraps : Prop :=
  ∀ (s : State) (x : Reg),
    ∃ t, exec (.addI x) s = .next t ∧ t.i.toNat = (s.i.toNat + (s.getV x).toNat) % 65536 ∧ KeepsMemory s t ∧
      t.pc = s.pc + 2#16 ∧ t = { s with i := t.i, pc := t.pc }

/-- R98: the glyph of a digit, for every font place the spec admits (decision D3). -/
def Obligations.IndexPointsAtGlyph : Prop :=
  ∀ (s : State) (x : Reg), s.cfg.fontBase ≤ 0x1B0 → (s.getV x).toNat ≤ 0xF →
    ∃ t, exec (.ldF x) s = .next t ∧ t.i.toNat = s.cfg.fontBase + 5 * (s.getV x).toNat ∧ KeepsMemory s t ∧
      t.pc = s.pc + 2#16 ∧ t = { s with i := t.i, pc := t.pc }

/-- R98, R110, R111: V[x] above 0xF is no digit and no key (decision D4). -/
def Obligations.OperandAboveFFaults : Prop :=
  ∀ (s : State) (x : Reg), 0xF < (s.getV x).toNat →
    exec (.ldF x) s =
      .next (faulted s .operandOutOfRange (some (encode (.ldF x))) (.value (s.getV x))) ∧
    exec (.skp x) s =
      .next (faulted s .operandOutOfRange (some (encode (.skp x))) (.value (s.getV x))) ∧
    exec (.sknp x) s =
      .next (faulted s .operandOutOfRange (some (encode (.sknp x))) (.value (s.getV x)))

/-- R99: the decimal digits at I, I+1, I+2, under either write policy (decision D16). The premise on the memory is the
invariant's (`StepKeepsTheInvariant`). -/
def Obligations.StoreDecimalDigits : Prop :=
  ∀ (s : State) (x : Reg), Memory.wf s.cfg s.mem → s.dataBase + 2 ≤ 0xFFF →
    (s.cfg.lowWritePolicy = .write ∨ 0x200 ≤ s.dataBase) →
    ∃ t, exec (.ldB x) s = .next t ∧
      (t.readByte s.dataBase).toNat = (s.getV x).toNat / 100 ∧
      (t.readByte (s.dataBase + 1)).toNat = (s.getV x).toNat / 10 % 10 ∧
      (t.readByte (s.dataBase + 2)).toNat = (s.getV x).toNat % 10 ∧
      KeepsMemoryOutside s.dataBase 3 s t ∧ t.pc = s.pc + 2#16 ∧ t = { s with mem := t.mem, pc := t.pc }

/-- R100: V[0] .. V[x] at I .. I + x; I advances by x + 1 only under LOAD_STORE_INCREMENTS_I (decision D6), under either
write policy (decision D16). The premise on the memory is the invariant's. -/
def Obligations.StoreRegistersToMemory : Prop :=
  ∀ (s : State) (x : Reg), Memory.wf s.cfg s.mem → s.dataBase + x.toNat ≤ 0xFFF →
    (s.cfg.lowWritePolicy = .write ∨ 0x200 ≤ s.dataBase) →
    ∃ t, exec (.stRegs x) s = .next t ∧
      (∀ r : Reg, r.toNat ≤ x.toNat → t.readByte (s.dataBase + r.toNat) = s.getV r) ∧
      KeepsMemoryOutside s.dataBase (x.toNat + 1) s t ∧
      t.i.toNat = (if s.cfg.loadStoreIncrementsI then (s.i.toNat + x.toNat + 1) % 65536 else s.i.toNat) ∧
      t.pc = s.pc + 2#16 ∧ t = { s with mem := t.mem, i := t.i, pc := t.pc }

/-- R101: V[0] .. V[x] from I .. I + x; I as in R100 (decision D6). -/
def Obligations.LoadRegistersFromMemory : Prop :=
  ∀ (s : State) (x : Reg), s.dataBase + x.toNat ≤ 0xFFF →
    ∃ t, exec (.ldRegs x) s = .next t ∧
      (∀ r : Reg, t.getV r = if r.toNat ≤ x.toNat then s.readByte (s.dataBase + r.toNat) else s.getV r) ∧
      KeepsMemory s t ∧
      t.i.toNat = (if s.cfg.loadStoreIncrementsI then (s.i.toNat + x.toNat + 1) % 65536 else s.i.toNat) ∧
      t.pc = s.pc + 2#16 ∧ t = { s with v := t.v, i := t.i, pc := t.pc }

/-- R46-R48, R114, R119: the data accesses that fault, each with the lowest failing address, and nothing written
(decisions D16, D20, D22, D28, D37). -/
def Obligations.DataAccessFaults : Prop :=
  ∀ (s : State) (x y : Reg) (n : Nibble),
    (0xFFF < s.dataBase + 2 →
      exec (.ldB x) s =
        .next (faulted s .memoryOutOfRange (some (encode (.ldB x))) (.addr (firstBeyond s.dataBase)))) ∧
    (0xFFF < s.dataBase + x.toNat →
      exec (.stRegs x) s =
        .next (faulted s .memoryOutOfRange (some (encode (.stRegs x))) (.addr (firstBeyond s.dataBase))) ∧
      exec (.ldRegs x) s =
        .next (faulted s .memoryOutOfRange (some (encode (.ldRegs x))) (.addr (firstBeyond s.dataBase)))) ∧
    (0 < n.toNat → 0xFFF < s.dataBase + (n.toNat - 1) →
      exec (.drw x y n) s =
        .next (faulted s .memoryOutOfRange (some (encode (.drw x y n))) (.addr (firstBeyond s.dataBase)))) ∧
    (s.cfg.lowWritePolicy = .fault → s.dataBase < 0x200 →
      exec (.ldB x) s = .next (faulted s .reservedWrite (some (encode (.ldB x))) (.addr s.dataBase)) ∧
      exec (.stRegs x) s = .next (faulted s .reservedWrite (some (encode (.stRegs x))) (.addr s.dataBase)))

/-! ## The display -/

/-- R102; clearing a blank display sets DRAW_FLAG too (decision D24). -/
def Obligations.ClearTurnsEveryPixelOff : Prop :=
  ∀ s : State,
    ∃ t, exec .cls s = .next t ∧ (∀ r c, t.disp.pixel r c = false) ∧ t.drawFlag = true ∧ KeepsMemory s t ∧
      t.pc = s.pc + 2#16 ∧ t = { s with disp := t.disp, drawFlag := t.drawFlag, pc := t.pc }

/-- R103, R104: a draw toggles exactly the pixels under the sprite's 1 bits, with wraparound, and VF is 1 exactly when one
of them was on (bit 7 leftmost, decision D11; n = 0 draws nothing and sets VF = 0, decision D10; DRAW_FLAG, decision D24). -/
def Obligations.DrawTogglesTheSpritesPixels : Prop :=
  ∀ (s : State) (x y : Reg) (n : Nibble), n.toNat = 0 ∨ s.dataBase + (n.toNat - 1) ≤ 0xFFF →
    ∃ t, exec (.drw x y n) s = .next t ∧
      (∀ r c, t.disp.pixel r c = (s.disp.pixel r c != s.spriteBit x y n r c)) ∧
      (t.getV VF = 0x01#8 ∨ t.getV VF = 0x00#8) ∧
      (t.getV VF = 0x01#8 ↔ ∃ r c, s.spriteBit x y n r c = true ∧ s.disp.pixel r c = true) ∧
      t.drawFlag = true ∧ KeepsRegsBut [VF] s t ∧ KeepsMemory s t ∧ t.pc = s.pc + 2#16 ∧
      t = { s with v := t.v, disp := t.disp, drawFlag := t.drawFlag, pc := t.pc }

/-- R105: the same sprite drawn twice at the same place, with no other display write in between, restores the display; the
second draw gives VF = 1 exactly when a 1 bit of the sprite lands on a pixel that was off before the first. (The spec
derives this rule from R104.) -/
def Obligations.DrawingTwiceRestoresTheDisplay : Prop :=
  ∀ (s t s' : State) (x y x' y' : Reg) (n : Nibble),
    n.toNat = 0 ∨ s.dataBase + (n.toNat - 1) ≤ 0xFFF → n.toNat = 0 ∨ s'.dataBase + (n.toNat - 1) ≤ 0xFFF →
    exec (.drw x y n) s = .next t → s'.disp = t.disp →
    (s'.getV x').toNat % 64 = (s.getV x).toNat % 64 → (s'.getV y').toNat % 32 = (s.getV y).toNat % 32 →
    (∀ j, j < n.toNat → s'.readByte (s'.dataBase + j) = s.readByte (s.dataBase + j)) →
    ∃ u, exec (.drw x' y' n) s' = .next u ∧ u.disp = s.disp ∧
      (u.getV VF = 0x01#8 ↔ ∃ r c, s.spriteBit x y n r c = true ∧ s.disp.pixel r c = false)

/-! ## Timers and keys -/

/-- R107, R108, R109. -/
def Obligations.TimerReadsAndWrites : Prop :=
  ∀ (s : State) (x : Reg),
    (encode (.ldVxDT x) = formatXKK 0xF#4 x 0x07#8 ∧
      ∃ t, exec (.ldVxDT x) s = .next t ∧ t.getV x = s.dt ∧ OnlyRegs [x] s t) ∧
    (encode (.ldDTVx x) = formatXKK 0xF#4 x 0x15#8 ∧
      ∃ t, exec (.ldDTVx x) s = .next t ∧ t.dt = s.getV x ∧ KeepsMemory s t ∧ t.pc = s.pc + 2#16 ∧
        t = { s with dt := t.dt, pc := t.pc }) ∧
    (encode (.ldSTVx x) = formatXKK 0xF#4 x 0x18#8 ∧
      ∃ t, exec (.ldSTVx x) s = .next t ∧ t.st = s.getV x ∧ (t.tone = true ↔ s.getV x ≠ 0x00#8) ∧ KeepsMemory s t ∧
        t.pc = s.pc + 2#16 ∧ t = { s with st := t.st, pc := t.pc })

/-- R122: in HALTED nothing, else each timer down by 1 if it is not 0. -/
def Obligations.TickCountsEachTimerDown : Prop :=
  ∀ s : State,
    (s.status = .halted → react .tick s = .next s) ∧
    (s.status ≠ .halted →
      ∃ t, react .tick s = .next t ∧ t.dt.toNat = s.dt.toNat - 1 ∧ t.st.toNat = s.st.toNat - 1 ∧
        t = { s with dt := t.dt, st := t.st })

/-- R122-R124 over a run of the whole machine: k ticks take min(k, value) off each timer, whatever else the host sends
between them that is not a step; the tone is off exactly when the sound timer has reached 0 (decision D23). -/
def Obligations.TicksFloorAtZero : Prop :=
  ∀ (es : List Event) (s : State), s.status ≠ .halted → Event.step ∉ es →
    ∃ t, Sys2Proof.core.run es.length { s with events := es } = .next t ∧
      t.dt.toNat = s.dt.toNat - es.count .tick ∧ t.st.toNat = s.st.toNat - es.count .tick ∧
      (t.tone = false ↔ s.st.toNat ≤ es.count .tick) ∧ t.events = [] ∧ t.status = s.status ∧ t.pc = s.pc ∧
      t.v = s.v ∧ KeepsMemory s t

/-- R125, R126 (decisions D12, D24): a key-state update and a present acknowledge. -/
def Obligations.KeyUpdateAndPresentAck : Prop :=
  ∀ (s : State) (new : Word), s.status ≠ .halted →
    react (.keyUpdate new) s = .next { s with keysPrev := s.keys, keys := new } ∧
    react .presentAck s = .next { s with drawFlag := false }

/-- R110, R111: the key tests, for a key number (for a larger value: `OperandAboveFFaults`; decision D4). -/
def Obligations.KeyTestsSkipOnTheLevel : Prop :=
  ∀ (s : State) (x : Reg), (s.getV x).toNat ≤ 0xF →
    (∃ t, exec (.skp x) s = .next t ∧
      t.pc = (if s.keys.getLsbD (s.getV x).toNat = true then s.pc + 4#16 else s.pc + 2#16) ∧ OnlyPc s t) ∧
    (∃ t, exec (.sknp x) s = .next t ∧
      t.pc = (if s.keys.getLsbD (s.getV x).toNat = false then s.pc + 4#16 else s.pc + 2#16) ∧ OnlyPc s t)

/-- R112, R113 (decision D12): with no key-press edge Fx0A waits, and waiting again changes nothing more (R69,
decision D35). -/
def Obligations.KeyWaitWithoutEdgeWaits : Prop :=
  ∀ (s : State) (x : Reg), (∀ k, k < 16 → s.keys.getLsbD k = true → s.keysPrev.getLsbD k = true) →
    exec (.ldVxK x) s = .next { s with status := .awaitKey } ∧
    exec (.ldVxK x) { s with status := .awaitKey } = .next { s with status := .awaitKey }

/-- R112, R113 (decision D12): with an edge Fx0A completes: the lowest key with one is stored and its press consumed, the
other edges stay pending. -/
def Obligations.KeyWaitStoresTheLowestEdge : Prop :=
  ∀ (s : State) (x : Reg), (∃ k, k < 16 ∧ s.keys.getLsbD k = true ∧ s.keysPrev.getLsbD k = false) →
    ∃ t k, exec (.ldVxK x) s = .next t ∧ k < 16 ∧ s.keys.getLsbD k = true ∧ s.keysPrev.getLsbD k = false ∧
      (∀ j, j < k → s.keys.getLsbD j = true → s.keysPrev.getLsbD j = true) ∧ (t.getV x).toNat = k ∧
      (∀ j, j < 16 → t.keysPrev.getLsbD j = (s.keysPrev.getLsbD j || decide (j = k))) ∧ t.status = .running ∧
      KeepsRegsBut [x] s t ∧ KeepsMemory s t ∧ t.pc = s.pc + 2#16 ∧
      t = { s with v := t.v, keysPrev := t.keysPrev, status := t.status, pc := t.pc }

/-! ## Rules of the whole machine -/

/-- R18: an instruction leaves every general register outside its row of the table as it was. -/
def Obligations.OnlyTheListedInstructionsWriteRegisters : Prop :=
  ∀ (i : Instr) (s t : State) (r : Reg), exec i s = .next t → ¬mayWrite i r → t.getV r = s.getV r

/-- R19, R23-R31, R38: which instructions write each piece of state beside the V registers and PC (the increment of I,
decision D6; the latch KEYS_PREV, decision D12; STATUS, decision D35; a fault, decisions D20, D21). The parameters, the
counter of random bytes and the pending events are the model's own (log entries 1, 4, 5). -/
def Obligations.EachPieceOfStateHasItsWriters : Prop :=
  ∀ (i : Instr) (s t : State), exec i s = .next t →
    (t.i = s.i ∨ (∃ nnn, i = .ldI nnn) ∨ (∃ x, i = .addI x ∨ i = .ldF x) ∨
      s.cfg.loadStoreIncrementsI = true ∧ ∃ x, i = .stRegs x ∨ i = .ldRegs x) ∧
    (t.sp = s.sp ∨ i = .ret ∨ ∃ nnn, i = .call nnn) ∧ (t.stack = s.stack ∨ ∃ nnn, i = .call nnn) ∧
    (t.dt = s.dt ∨ ∃ x, i = .ldDTVx x) ∧ (t.st = s.st ∨ ∃ x, i = .ldSTVx x) ∧
    (t.mem = s.mem ∨ ∃ x, i = .ldB x ∨ i = .stRegs x) ∧
    (t.disp = s.disp ∧ t.drawFlag = s.drawFlag ∨ i = .cls ∨ ∃ x y n, i = .drw x y n) ∧
    t.keys = s.keys ∧ (t.keysPrev = s.keysPrev ∨ ∃ x, i = .ldVxK x) ∧
    (t.status = s.status ∨ (∃ x, i = .ldVxK x) ∨ ∃ kind info, t = faulted s kind (some (encode i)) info) ∧
    (t.fault = s.fault ∨ ∃ kind info, t = faulted s kind (some (encode i)) info) ∧
    t.cfg = s.cfg ∧ (t.draws = s.draws ∨ ∃ x kk, i = .rnd x kk) ∧ t.events = s.events

/-- R22 (the spec derives its last sentence): the PC each instruction leaves, and the PC of a fault. -/
def Obligations.PcFollowsTheTable : Prop :=
  ∀ (i : Instr) (s t : State), s.status ≠ .halted → exec i s = .next t →
    (t.status ≠ .halted → pcAfter s i t.pc) ∧ (t.status = .halted → t.pc = s.pc)

/-- R116: a fault is precise: the instruction writes nothing, STATUS and FAULT apart, and the record holds its PC and its
word (decisions D20, D21). -/
def Obligations.FaultsArePrecise : Prop :=
  ∀ (i : Instr) (s t : State), s.status ≠ .halted → exec i s = .next t → t.status = .halted →
    ∃ kind info, t = faulted s kind (some (encode i)) info

/-- R114: which instruction raises which kind, and the kinds' codes (decisions D4, D16, D21); UnknownOpcode is the step's, of
no decoded instruction (`UnknownWordFaults`). -/
def Obligations.FaultKindsByInstruction : Prop :=
  FaultKind.unknownOpcode.code = 3 ∧
  ∀ (i : Instr) (s t : State) (r : FaultRecord), s.status ≠ .halted → exec i s = .next t → t.status = .halted →
    t.fault = some r →
    match r.kind with
    | .stackOverflow => r.kind.code = 1 ∧ ∃ nnn, i = .call nnn
    | .stackUnderflow => r.kind.code = 2 ∧ i = .ret
    | .unknownOpcode => False
    | .memoryOutOfRange =>
      r.kind.code = 4 ∧ ∃ x, (∃ y n, i = .drw x y n) ∨ i = .ldB x ∨ i = .stRegs x ∨ i = .ldRegs x
    | .reservedWrite => r.kind.code = 5 ∧ ∃ x, i = .ldB x ∨ i = .stRegs x
    | .operandOutOfRange => r.kind.code = 6 ∧ ∃ x, i = .skp x ∨ i = .sknp x ∨ i = .ldF x

/-- R28: KEYS changes only at a key-state update, and no instruction writes it. That an update in HALTED changes nothing is
R117 and R125 (decision D31); the event a step takes is the oldest of the model's list (log entry 5). -/
def Obligations.KeysChangeOnlyAtKeyUpdates : Prop :=
  (∀ (i : Instr) (s t : State), exec i s = .next t → t.keys = s.keys) ∧
  (∀ s t : State, step s = .next t →
    t.keys = match s.nextEvent with
      | .keyUpdate new => if s.status = .halted then s.keys else new
      | _ => s.keys)

/-- R43, from R47 (decision D16; the spec derives R43): under LOW_WRITE_POLICY = FAULT no event changes a byte below 0x200,
the font's among them, and no event changes a parameter. -/
def Obligations.ReservedBytesNeverChange : Prop :=
  ∀ s t : State, step s = .next t →
    t.cfg = s.cfg ∧ (s.cfg.lowWritePolicy = .fault → ∀ a, a < 0x200 → t.readByte a = s.readByte a)

/-- The invariant at reset, with the values log entries 2 and 3 choose. -/
def Obligations.InvariantAtReset : Prop := State.reset.Inv

/-- The invariant in the machine every accepted launch starts, with any program and any launch parameters (R136, R137). -/
def Obligations.InvariantAtEveryLaunch : Prop :=
  ∀ (l : Launch) (s : State), boot l = .ok s → s.Inv

/-- Every event keeps the invariant (R30, R31, R116, R117; the memory's canonical form is the model's own, log entry 9). -/
def Obligations.StepKeepsTheInvariant : Prop :=
  ∀ s t : State, s.Inv → step s = .next t → t.Inv

/-- R30, R134: while the core waits for a key no fault can occur (decision D35): a step asked for in AWAIT_KEY runs the
Fx0A, which completes or waits on. -/
def Obligations.WaitingForAKeyNeverFaults : Prop :=
  ∀ s t : State, s.Inv → s.status = .awaitKey → step s = .next t → t.status ≠ .halted ∧ t.fault = none

/-! ## Reset and load -/

/-- R34, R136, R137: the machine a launch starts (decisions D13-D15, D30, D39; the font, decision D3). -/
def Obligations.LaunchGivesTheResetState : Prop :=
  ∀ l : Launch, l.cfg.fontBase ≤ 0x1B0 → l.program.length ≤ 3584 →
    ∃ s, boot l = .ok s ∧ s.pc = 0x200#16 ∧ s.sp.val = 0 ∧ s.dt = 0x00#8 ∧ s.st = 0x00#8 ∧
      (∀ r c, s.disp.pixel r c = false) ∧ s.drawFlag = false ∧ s.keys = 0x0000#16 ∧ s.keysPrev = 0x0000#16 ∧
      s.v = l.resetV ∧ s.i = l.resetI ∧ s.status = .running ∧ s.fault = none ∧ s.cfg = l.cfg ∧
      ∀ a, a < 0x1000 →
        s.readByte a =
          if 0x200 ≤ a ∧ a < 0x200 + l.program.length then l.program.getD (a - 0x200) 0x00#8
          else if l.cfg.fontBase ≤ a ∧ a < l.cfg.fontBase + 80 then l.cfg.fontData.toList.getD (a - l.cfg.fontBase) 0x00#8
          else 0x00#8

/-- R137, R42: no machine is started for a program longer than 3584 bytes, or for a font that does not fit (decisions
D30, D3). -/
def Obligations.LaunchRefusesWhatDoesNotFit : Prop :=
  ∀ l : Launch,
    (l.cfg.fontBase ≤ 0x1B0 → 3584 < l.program.length → boot l = .error (.loadError l.program.length)) ∧
    (0x1B0 < l.cfg.fontBase → boot l = .error (.fontDoesNotFit l.cfg.fontBase))
end

