-- ==== Sys2Proof/Laws/State.lean ====
section
/-! SUPPORT. One lemma per field per update of State, and per accessor per update, so that no proof unfolds an update. -/

namespace Sys2Proof.Machine.State

variable (s : State)

/-! ### setPc -/

@[simp] theorem setPc_v (w : Word) : (s.setPc w).v = s.v := rfl
@[simp] theorem setPc_i (w : Word) : (s.setPc w).i = s.i := rfl
@[simp] theorem setPc_pc (w : Word) : (s.setPc w).pc = w := rfl
@[simp] theorem setPc_sp (w : Word) : (s.setPc w).sp = s.sp := rfl
@[simp] theorem setPc_stack (w : Word) : (s.setPc w).stack = s.stack := rfl
@[simp] theorem setPc_dt (w : Word) : (s.setPc w).dt = s.dt := rfl
@[simp] theorem setPc_st (w : Word) : (s.setPc w).st = s.st := rfl
@[simp] theorem setPc_mem (w : Word) : (s.setPc w).mem = s.mem := rfl
@[simp] theorem setPc_disp (w : Word) : (s.setPc w).disp = s.disp := rfl
@[simp] theorem setPc_drawFlag (w : Word) : (s.setPc w).drawFlag = s.drawFlag := rfl
@[simp] theorem setPc_keys (w : Word) : (s.setPc w).keys = s.keys := rfl
@[simp] theorem setPc_keysPrev (w : Word) : (s.setPc w).keysPrev = s.keysPrev := rfl
@[simp] theorem setPc_status (w : Word) : (s.setPc w).status = s.status := rfl
@[simp] theorem setPc_fault (w : Word) : (s.setPc w).fault = s.fault := rfl
@[simp] theorem setPc_cfg (w : Word) : (s.setPc w).cfg = s.cfg := rfl
@[simp] theorem setPc_draws (w : Word) : (s.setPc w).draws = s.draws := rfl
@[simp] theorem setPc_events (w : Word) : (s.setPc w).events = s.events := rfl
@[simp] theorem setPc_getV (w : Word) (r : Reg) : (s.setPc w).getV r = s.getV r := rfl
@[simp] theorem setPc_readByte (w : Word) (k : Nat) : (s.setPc w).readByte k = s.readByte k := rfl

/-! ### setI -/

@[simp] theorem setI_v (w : Word) : (s.setI w).v = s.v := rfl
@[simp] theorem setI_i (w : Word) : (s.setI w).i = w := rfl
@[simp] theorem setI_pc (w : Word) : (s.setI w).pc = s.pc := rfl
@[simp] theorem setI_sp (w : Word) : (s.setI w).sp = s.sp := rfl
@[simp] theorem setI_stack (w : Word) : (s.setI w).stack = s.stack := rfl
@[simp] theorem setI_dt (w : Word) : (s.setI w).dt = s.dt := rfl
@[simp] theorem setI_st (w : Word) : (s.setI w).st = s.st := rfl
@[simp] theorem setI_mem (w : Word) : (s.setI w).mem = s.mem := rfl
@[simp] theorem setI_disp (w : Word) : (s.setI w).disp = s.disp := rfl
@[simp] theorem setI_drawFlag (w : Word) : (s.setI w).drawFlag = s.drawFlag := rfl
@[simp] theorem setI_keys (w : Word) : (s.setI w).keys = s.keys := rfl
@[simp] theorem setI_keysPrev (w : Word) : (s.setI w).keysPrev = s.keysPrev := rfl
@[simp] theorem setI_status (w : Word) : (s.setI w).status = s.status := rfl
@[simp] theorem setI_fault (w : Word) : (s.setI w).fault = s.fault := rfl
@[simp] theorem setI_cfg (w : Word) : (s.setI w).cfg = s.cfg := rfl
@[simp] theorem setI_draws (w : Word) : (s.setI w).draws = s.draws := rfl
@[simp] theorem setI_events (w : Word) : (s.setI w).events = s.events := rfl
@[simp] theorem setI_getV (w : Word) (r : Reg) : (s.setI w).getV r = s.getV r := rfl
@[simp] theorem setI_readByte (w : Word) (k : Nat) : (s.setI w).readByte k = s.readByte k := rfl

/-! ### setDt -/

@[simp] theorem setDt_v (b : Byte) : (s.setDt b).v = s.v := rfl
@[simp] theorem setDt_i (b : Byte) : (s.setDt b).i = s.i := rfl
@[simp] theorem setDt_pc (b : Byte) : (s.setDt b).pc = s.pc := rfl
@[simp] theorem setDt_sp (b : Byte) : (s.setDt b).sp = s.sp := rfl
@[simp] theorem setDt_stack (b : Byte) : (s.setDt b).stack = s.stack := rfl
@[simp] theorem setDt_dt (b : Byte) : (s.setDt b).dt = b := rfl
@[simp] theorem setDt_st (b : Byte) : (s.setDt b).st = s.st := rfl
@[simp] theorem setDt_mem (b : Byte) : (s.setDt b).mem = s.mem := rfl
@[simp] theorem setDt_disp (b : Byte) : (s.setDt b).disp = s.disp := rfl
@[simp] theorem setDt_drawFlag (b : Byte) : (s.setDt b).drawFlag = s.drawFlag := rfl
@[simp] theorem setDt_keys (b : Byte) : (s.setDt b).keys = s.keys := rfl
@[simp] theorem setDt_keysPrev (b : Byte) : (s.setDt b).keysPrev = s.keysPrev := rfl
@[simp] theorem setDt_status (b : Byte) : (s.setDt b).status = s.status := rfl
@[simp] theorem setDt_fault (b : Byte) : (s.setDt b).fault = s.fault := rfl
@[simp] theorem setDt_cfg (b : Byte) : (s.setDt b).cfg = s.cfg := rfl
@[simp] theorem setDt_draws (b : Byte) : (s.setDt b).draws = s.draws := rfl
@[simp] theorem setDt_events (b : Byte) : (s.setDt b).events = s.events := rfl
@[simp] theorem setDt_getV (b : Byte) (r : Reg) : (s.setDt b).getV r = s.getV r := rfl
@[simp] theorem setDt_readByte (b : Byte) (k : Nat) : (s.setDt b).readByte k = s.readByte k := rfl

/-! ### setSt -/

@[simp] theorem setSt_v (b : Byte) : (s.setSt b).v = s.v := rfl
@[simp] theorem setSt_i (b : Byte) : (s.setSt b).i = s.i := rfl
@[simp] theorem setSt_pc (b : Byte) : (s.setSt b).pc = s.pc := rfl
@[simp] theorem setSt_sp (b : Byte) : (s.setSt b).sp = s.sp := rfl
@[simp] theorem setSt_stack (b : Byte) : (s.setSt b).stack = s.stack := rfl
@[simp] theorem setSt_dt (b : Byte) : (s.setSt b).dt = s.dt := rfl
@[simp] theorem setSt_st (b : Byte) : (s.setSt b).st = b := rfl
@[simp] theorem setSt_mem (b : Byte) : (s.setSt b).mem = s.mem := rfl
@[simp] theorem setSt_disp (b : Byte) : (s.setSt b).disp = s.disp := rfl
@[simp] theorem setSt_drawFlag (b : Byte) : (s.setSt b).drawFlag = s.drawFlag := rfl
@[simp] theorem setSt_keys (b : Byte) : (s.setSt b).keys = s.keys := rfl
@[simp] theorem setSt_keysPrev (b : Byte) : (s.setSt b).keysPrev = s.keysPrev := rfl
@[simp] theorem setSt_status (b : Byte) : (s.setSt b).status = s.status := rfl
@[simp] theorem setSt_fault (b : Byte) : (s.setSt b).fault = s.fault := rfl
@[simp] theorem setSt_cfg (b : Byte) : (s.setSt b).cfg = s.cfg := rfl
@[simp] theorem setSt_draws (b : Byte) : (s.setSt b).draws = s.draws := rfl
@[simp] theorem setSt_events (b : Byte) : (s.setSt b).events = s.events := rfl
@[simp] theorem setSt_getV (b : Byte) (r : Reg) : (s.setSt b).getV r = s.getV r := rfl
@[simp] theorem setSt_readByte (b : Byte) (k : Nat) : (s.setSt b).readByte k = s.readByte k := rfl

/-! ### setMem -/

@[simp] theorem setMem_v (m : Memory) : (s.setMem m).v = s.v := rfl
@[simp] theorem setMem_i (m : Memory) : (s.setMem m).i = s.i := rfl
@[simp] theorem setMem_pc (m : Memory) : (s.setMem m).pc = s.pc := rfl
@[simp] theorem setMem_sp (m : Memory) : (s.setMem m).sp = s.sp := rfl
@[simp] theorem setMem_stack (m : Memory) : (s.setMem m).stack = s.stack := rfl
@[simp] theorem setMem_dt (m : Memory) : (s.setMem m).dt = s.dt := rfl
@[simp] theorem setMem_st (m : Memory) : (s.setMem m).st = s.st := rfl
@[simp] theorem setMem_mem (m : Memory) : (s.setMem m).mem = m := rfl
@[simp] theorem setMem_disp (m : Memory) : (s.setMem m).disp = s.disp := rfl
@[simp] theorem setMem_drawFlag (m : Memory) : (s.setMem m).drawFlag = s.drawFlag := rfl
@[simp] theorem setMem_keys (m : Memory) : (s.setMem m).keys = s.keys := rfl
@[simp] theorem setMem_keysPrev (m : Memory) : (s.setMem m).keysPrev = s.keysPrev := rfl
@[simp] theorem setMem_status (m : Memory) : (s.setMem m).status = s.status := rfl
@[simp] theorem setMem_fault (m : Memory) : (s.setMem m).fault = s.fault := rfl
@[simp] theorem setMem_cfg (m : Memory) : (s.setMem m).cfg = s.cfg := rfl
@[simp] theorem setMem_draws (m : Memory) : (s.setMem m).draws = s.draws := rfl
@[simp] theorem setMem_events (m : Memory) : (s.setMem m).events = s.events := rfl
@[simp] theorem setMem_getV (m : Memory) (r : Reg) : (s.setMem m).getV r = s.getV r := rfl

/-! ### setRegs -/

@[simp] theorem setRegs_v (r : Vector Byte 16) : (s.setRegs r).v = r := rfl
@[simp] theorem setRegs_i (r : Vector Byte 16) : (s.setRegs r).i = s.i := rfl
@[simp] theorem setRegs_pc (r : Vector Byte 16) : (s.setRegs r).pc = s.pc := rfl
@[simp] theorem setRegs_sp (r : Vector Byte 16) : (s.setRegs r).sp = s.sp := rfl
@[simp] theorem setRegs_stack (r : Vector Byte 16) : (s.setRegs r).stack = s.stack := rfl
@[simp] theorem setRegs_dt (r : Vector Byte 16) : (s.setRegs r).dt = s.dt := rfl
@[simp] theorem setRegs_st (r : Vector Byte 16) : (s.setRegs r).st = s.st := rfl
@[simp] theorem setRegs_mem (r : Vector Byte 16) : (s.setRegs r).mem = s.mem := rfl
@[simp] theorem setRegs_disp (r : Vector Byte 16) : (s.setRegs r).disp = s.disp := rfl
@[simp] theorem setRegs_drawFlag (r : Vector Byte 16) : (s.setRegs r).drawFlag = s.drawFlag := rfl
@[simp] theorem setRegs_keys (r : Vector Byte 16) : (s.setRegs r).keys = s.keys := rfl
@[simp] theorem setRegs_keysPrev (r : Vector Byte 16) : (s.setRegs r).keysPrev = s.keysPrev := rfl
@[simp] theorem setRegs_status (r : Vector Byte 16) : (s.setRegs r).status = s.status := rfl
@[simp] theorem setRegs_fault (r : Vector Byte 16) : (s.setRegs r).fault = s.fault := rfl
@[simp] theorem setRegs_cfg (r : Vector Byte 16) : (s.setRegs r).cfg = s.cfg := rfl
@[simp] theorem setRegs_draws (r : Vector Byte 16) : (s.setRegs r).draws = s.draws := rfl
@[simp] theorem setRegs_events (r : Vector Byte 16) : (s.setRegs r).events = s.events := rfl
@[simp] theorem setRegs_readByte (r : Vector Byte 16) (k : Nat) : (s.setRegs r).readByte k = s.readByte k := rfl

/-! ### setV -/

@[simp] theorem setV_v (x : Reg) (b : Byte) : (s.setV x b).v = s.v.set x.toNat b x.isLt := rfl
@[simp] theorem setV_i (x : Reg) (b : Byte) : (s.setV x b).i = s.i := rfl
@[simp] theorem setV_pc (x : Reg) (b : Byte) : (s.setV x b).pc = s.pc := rfl
@[simp] theorem setV_sp (x : Reg) (b : Byte) : (s.setV x b).sp = s.sp := rfl
@[simp] theorem setV_stack (x : Reg) (b : Byte) : (s.setV x b).stack = s.stack := rfl
@[simp] theorem setV_dt (x : Reg) (b : Byte) : (s.setV x b).dt = s.dt := rfl
@[simp] theorem setV_st (x : Reg) (b : Byte) : (s.setV x b).st = s.st := rfl
@[simp] theorem setV_mem (x : Reg) (b : Byte) : (s.setV x b).mem = s.mem := rfl
@[simp] theorem setV_disp (x : Reg) (b : Byte) : (s.setV x b).disp = s.disp := rfl
@[simp] theorem setV_drawFlag (x : Reg) (b : Byte) : (s.setV x b).drawFlag = s.drawFlag := rfl
@[simp] theorem setV_keys (x : Reg) (b : Byte) : (s.setV x b).keys = s.keys := rfl
@[simp] theorem setV_keysPrev (x : Reg) (b : Byte) : (s.setV x b).keysPrev = s.keysPrev := rfl
@[simp] theorem setV_status (x : Reg) (b : Byte) : (s.setV x b).status = s.status := rfl
@[simp] theorem setV_fault (x : Reg) (b : Byte) : (s.setV x b).fault = s.fault := rfl
@[simp] theorem setV_cfg (x : Reg) (b : Byte) : (s.setV x b).cfg = s.cfg := rfl
@[simp] theorem setV_draws (x : Reg) (b : Byte) : (s.setV x b).draws = s.draws := rfl
@[simp] theorem setV_events (x : Reg) (b : Byte) : (s.setV x b).events = s.events := rfl
@[simp] theorem setV_readByte (x : Reg) (b : Byte) (k : Nat) : (s.setV x b).readByte k = s.readByte k := rfl

/-! ### setStatus -/

@[simp] theorem setStatus_v (q : Status) : (s.setStatus q).v = s.v := rfl
@[simp] theorem setStatus_i (q : Status) : (s.setStatus q).i = s.i := rfl
@[simp] theorem setStatus_pc (q : Status) : (s.setStatus q).pc = s.pc := rfl
@[simp] theorem setStatus_sp (q : Status) : (s.setStatus q).sp = s.sp := rfl
@[simp] theorem setStatus_stack (q : Status) : (s.setStatus q).stack = s.stack := rfl
@[simp] theorem setStatus_dt (q : Status) : (s.setStatus q).dt = s.dt := rfl
@[simp] theorem setStatus_st (q : Status) : (s.setStatus q).st = s.st := rfl
@[simp] theorem setStatus_mem (q : Status) : (s.setStatus q).mem = s.mem := rfl
@[simp] theorem setStatus_disp (q : Status) : (s.setStatus q).disp = s.disp := rfl
@[simp] theorem setStatus_drawFlag (q : Status) : (s.setStatus q).drawFlag = s.drawFlag := rfl
@[simp] theorem setStatus_keys (q : Status) : (s.setStatus q).keys = s.keys := rfl
@[simp] theorem setStatus_keysPrev (q : Status) : (s.setStatus q).keysPrev = s.keysPrev := rfl
@[simp] theorem setStatus_status (q : Status) : (s.setStatus q).status = q := rfl
@[simp] theorem setStatus_fault (q : Status) : (s.setStatus q).fault = s.fault := rfl
@[simp] theorem setStatus_cfg (q : Status) : (s.setStatus q).cfg = s.cfg := rfl
@[simp] theorem setStatus_draws (q : Status) : (s.setStatus q).draws = s.draws := rfl
@[simp] theorem setStatus_events (q : Status) : (s.setStatus q).events = s.events := rfl
@[simp] theorem setStatus_getV (q : Status) (r : Reg) : (s.setStatus q).getV r = s.getV r := rfl
@[simp] theorem setStatus_readByte (q : Status) (k : Nat) : (s.setStatus q).readByte k = s.readByte k := rfl

/-! ### setKeysPrev -/

@[simp] theorem setKeysPrev_v (w : Word) : (s.setKeysPrev w).v = s.v := rfl
@[simp] theorem setKeysPrev_i (w : Word) : (s.setKeysPrev w).i = s.i := rfl
@[simp] theorem setKeysPrev_pc (w : Word) : (s.setKeysPrev w).pc = s.pc := rfl
@[simp] theorem setKeysPrev_sp (w : Word) : (s.setKeysPrev w).sp = s.sp := rfl
@[simp] theorem setKeysPrev_stack (w : Word) : (s.setKeysPrev w).stack = s.stack := rfl
@[simp] theorem setKeysPrev_dt (w : Word) : (s.setKeysPrev w).dt = s.dt := rfl
@[simp] theorem setKeysPrev_st (w : Word) : (s.setKeysPrev w).st = s.st := rfl
@[simp] theorem setKeysPrev_mem (w : Word) : (s.setKeysPrev w).mem = s.mem := rfl
@[simp] theorem setKeysPrev_disp (w : Word) : (s.setKeysPrev w).disp = s.disp := rfl
@[simp] theorem setKeysPrev_drawFlag (w : Word) : (s.setKeysPrev w).drawFlag = s.drawFlag := rfl
@[simp] theorem setKeysPrev_keys (w : Word) : (s.setKeysPrev w).keys = s.keys := rfl
@[simp] theorem setKeysPrev_keysPrev (w : Word) : (s.setKeysPrev w).keysPrev = w := rfl
@[simp] theorem setKeysPrev_status (w : Word) : (s.setKeysPrev w).status = s.status := rfl
@[simp] theorem setKeysPrev_fault (w : Word) : (s.setKeysPrev w).fault = s.fault := rfl
@[simp] theorem setKeysPrev_cfg (w : Word) : (s.setKeysPrev w).cfg = s.cfg := rfl
@[simp] theorem setKeysPrev_draws (w : Word) : (s.setKeysPrev w).draws = s.draws := rfl
@[simp] theorem setKeysPrev_events (w : Word) : (s.setKeysPrev w).events = s.events := rfl
@[simp] theorem setKeysPrev_getV (w : Word) (r : Reg) : (s.setKeysPrev w).getV r = s.getV r := rfl
@[simp] theorem setKeysPrev_readByte (w : Word) (k : Nat) : (s.setKeysPrev w).readByte k = s.readByte k := rfl

/-! ### drawn -/

@[simp] theorem drawn_v (d : Display) : (s.drawn d).v = s.v := rfl
@[simp] theorem drawn_i (d : Display) : (s.drawn d).i = s.i := rfl
@[simp] theorem drawn_pc (d : Display) : (s.drawn d).pc = s.pc := rfl
@[simp] theorem drawn_sp (d : Display) : (s.drawn d).sp = s.sp := rfl
@[simp] theorem drawn_stack (d : Display) : (s.drawn d).stack = s.stack := rfl
@[simp] theorem drawn_dt (d : Display) : (s.drawn d).dt = s.dt := rfl
@[simp] theorem drawn_st (d : Display) : (s.drawn d).st = s.st := rfl
@[simp] theorem drawn_mem (d : Display) : (s.drawn d).mem = s.mem := rfl
@[simp] theorem drawn_disp (d : Display) : (s.drawn d).disp = d := rfl
@[simp] theorem drawn_drawFlag (d : Display) : (s.drawn d).drawFlag = true := rfl
@[simp] theorem drawn_keys (d : Display) : (s.drawn d).keys = s.keys := rfl
@[simp] theorem drawn_keysPrev (d : Display) : (s.drawn d).keysPrev = s.keysPrev := rfl
@[simp] theorem drawn_status (d : Display) : (s.drawn d).status = s.status := rfl
@[simp] theorem drawn_fault (d : Display) : (s.drawn d).fault = s.fault := rfl
@[simp] theorem drawn_cfg (d : Display) : (s.drawn d).cfg = s.cfg := rfl
@[simp] theorem drawn_draws (d : Display) : (s.drawn d).draws = s.draws := rfl
@[simp] theorem drawn_events (d : Display) : (s.drawn d).events = s.events := rfl
@[simp] theorem drawn_getV (d : Display) (r : Reg) : (s.drawn d).getV r = s.getV r := rfl
@[simp] theorem drawn_readByte (d : Display) (k : Nat) : (s.drawn d).readByte k = s.readByte k := rfl

/-! ### countDraw -/

@[simp] theorem countDraw_v : (s.countDraw).v = s.v := rfl
@[simp] theorem countDraw_i : (s.countDraw).i = s.i := rfl
@[simp] theorem countDraw_pc : (s.countDraw).pc = s.pc := rfl
@[simp] theorem countDraw_sp : (s.countDraw).sp = s.sp := rfl
@[simp] theorem countDraw_stack : (s.countDraw).stack = s.stack := rfl
@[simp] theorem countDraw_dt : (s.countDraw).dt = s.dt := rfl
@[simp] theorem countDraw_st : (s.countDraw).st = s.st := rfl
@[simp] theorem countDraw_mem : (s.countDraw).mem = s.mem := rfl
@[simp] theorem countDraw_disp : (s.countDraw).disp = s.disp := rfl
@[simp] theorem countDraw_drawFlag : (s.countDraw).drawFlag = s.drawFlag := rfl
@[simp] theorem countDraw_keys : (s.countDraw).keys = s.keys := rfl
@[simp] theorem countDraw_keysPrev : (s.countDraw).keysPrev = s.keysPrev := rfl
@[simp] theorem countDraw_status : (s.countDraw).status = s.status := rfl
@[simp] theorem countDraw_fault : (s.countDraw).fault = s.fault := rfl
@[simp] theorem countDraw_cfg : (s.countDraw).cfg = s.cfg := rfl
@[simp] theorem countDraw_draws : (s.countDraw).draws = s.draws + 1 := rfl
@[simp] theorem countDraw_events : (s.countDraw).events = s.events := rfl
@[simp] theorem countDraw_getV (r : Reg) : (s.countDraw).getV r = s.getV r := rfl
@[simp] theorem countDraw_readByte (k : Nat) : (s.countDraw).readByte k = s.readByte k := rfl

/-! ### raise -/

@[simp] theorem raise_v (t : Trap) (b : Option Word) : (s.raise t b).v = s.v := rfl
@[simp] theorem raise_i (t : Trap) (b : Option Word) : (s.raise t b).i = s.i := rfl
@[simp] theorem raise_pc (t : Trap) (b : Option Word) : (s.raise t b).pc = s.pc := rfl
@[simp] theorem raise_sp (t : Trap) (b : Option Word) : (s.raise t b).sp = s.sp := rfl
@[simp] theorem raise_stack (t : Trap) (b : Option Word) : (s.raise t b).stack = s.stack := rfl
@[simp] theorem raise_dt (t : Trap) (b : Option Word) : (s.raise t b).dt = s.dt := rfl
@[simp] theorem raise_st (t : Trap) (b : Option Word) : (s.raise t b).st = s.st := rfl
@[simp] theorem raise_mem (t : Trap) (b : Option Word) : (s.raise t b).mem = s.mem := rfl
@[simp] theorem raise_disp (t : Trap) (b : Option Word) : (s.raise t b).disp = s.disp := rfl
@[simp] theorem raise_drawFlag (t : Trap) (b : Option Word) : (s.raise t b).drawFlag = s.drawFlag := rfl
@[simp] theorem raise_keys (t : Trap) (b : Option Word) : (s.raise t b).keys = s.keys := rfl
@[simp] theorem raise_keysPrev (t : Trap) (b : Option Word) : (s.raise t b).keysPrev = s.keysPrev := rfl
@[simp] theorem raise_status (t : Trap) (b : Option Word) : (s.raise t b).status = .halted := rfl
@[simp] theorem raise_fault (t : Trap) (b : Option Word) : (s.raise t b).fault = some ⟨t.kind, s.pc, b, t.info⟩ := rfl
@[simp] theorem raise_cfg (t : Trap) (b : Option Word) : (s.raise t b).cfg = s.cfg := rfl
@[simp] theorem raise_draws (t : Trap) (b : Option Word) : (s.raise t b).draws = s.draws := rfl
@[simp] theorem raise_events (t : Trap) (b : Option Word) : (s.raise t b).events = s.events := rfl
@[simp] theorem raise_getV (t : Trap) (b : Option Word) (r : Reg) : (s.raise t b).getV r = s.getV r := rfl
@[simp] theorem raise_readByte (t : Trap) (b : Option Word) (k : Nat) : (s.raise t b).readByte k = s.readByte k := rfl

/-! ### popEvent -/

@[simp] theorem popEvent_v : (s.popEvent).v = s.v := rfl
@[simp] theorem popEvent_i : (s.popEvent).i = s.i := rfl
@[simp] theorem popEvent_pc : (s.popEvent).pc = s.pc := rfl
@[simp] theorem popEvent_sp : (s.popEvent).sp = s.sp := rfl
@[simp] theorem popEvent_stack : (s.popEvent).stack = s.stack := rfl
@[simp] theorem popEvent_dt : (s.popEvent).dt = s.dt := rfl
@[simp] theorem popEvent_st : (s.popEvent).st = s.st := rfl
@[simp] theorem popEvent_mem : (s.popEvent).mem = s.mem := rfl
@[simp] theorem popEvent_disp : (s.popEvent).disp = s.disp := rfl
@[simp] theorem popEvent_drawFlag : (s.popEvent).drawFlag = s.drawFlag := rfl
@[simp] theorem popEvent_keys : (s.popEvent).keys = s.keys := rfl
@[simp] theorem popEvent_keysPrev : (s.popEvent).keysPrev = s.keysPrev := rfl
@[simp] theorem popEvent_status : (s.popEvent).status = s.status := rfl
@[simp] theorem popEvent_fault : (s.popEvent).fault = s.fault := rfl
@[simp] theorem popEvent_cfg : (s.popEvent).cfg = s.cfg := rfl
@[simp] theorem popEvent_draws : (s.popEvent).draws = s.draws := rfl
@[simp] theorem popEvent_events : (s.popEvent).events = s.events.tail := rfl
@[simp] theorem popEvent_getV (r : Reg) : (s.popEvent).getV r = s.getV r := rfl
@[simp] theorem popEvent_readByte (k : Nat) : (s.popEvent).readByte k = s.readByte k := rfl

/-! ### The composed updates, in terms of the ones above -/

@[simp] theorem advance_eq : s.advance = s.setPc (s.pc + 2#16) := rfl
@[simp] theorem skipIf_eq (b : Bool) : s.skipIf b = s.setPc (if b then s.pc + 4#16 else s.pc + 2#16) := rfl
@[simp] theorem writeBytes_eq (base : Nat) (bs : List Byte) :
    s.writeBytes base bs = s.setMem (Memory.setBytes s.cfg s.mem base bs) := rfl
@[simp] theorem setResult_eq (x : Reg) (r : Byte) (b : Bool) :
    s.setResult x r b = (s.setV x r).setV VF (flagByte b) := rfl
@[simp] theorem consumeKey_eq (k : Nat) : s.consumeKey k = s.setKeysPrev (s.keysPrev ||| (1#16 <<< k)) := rfl

/-- Fx55's and Fx65's end: I is the only field that can change. -/
theorem postIncrement_eq (x : Reg) :
    s.postIncrement x = s.setI (if s.cfg.loadStoreIncrementsI then s.i + BitVec.ofNat 16 (regCount x) else s.i) := by
  unfold postIncrement
  split <;> rfl

/-! ### The general registers -/

/-- A register read after a register write. -/
theorem getV_setV (x y : Reg) (b : Byte) : (s.setV x b).getV y = if y = x then b else s.getV y := by
  unfold getV setV
  rw [Vector.getElem_set]
  by_cases h : y = x
  · simp [h]
  · have : x.toNat ≠ y.toNat := fun e => h (BitVec.eq_of_toNat_eq e.symm)
    simp [h, this]

@[simp] theorem getV_setV_self (x : Reg) (b : Byte) : (s.setV x b).getV x = b := by simp [getV_setV]

/-- A result and a flag, the flag written last (spec/41_alu.md R82). -/
theorem getV_setResult (x y : Reg) (r : Byte) (b : Bool) :
    (s.setResult x r b).getV y = if y = VF then flagByte b else if y = x then r else s.getV y := by
  simp [getV_setV]

/-- Two states with the same registers have the same register file. -/
theorem v_ext {s t : State} (h : ∀ r, s.getV r = t.getV r) : s.v = t.v := by
  apply Vector.ext
  intro j hj
  have := h (BitVec.ofNat 4 j)
  have e : j % 16 = j := Nat.mod_eq_of_lt hj
  simpa [getV, e] using this

end Sys2Proof.Machine.State
end

