-- ==== Sys2Proof/Laws/Memory.lean ====
section
/-! SUPPORT. Memory: a read after a write, the canonical form, and the canonical form's point: equal contents are equal
lists. -/

namespace Sys2Proof.Machine.Memory

variable {c : Config}

/-! ### Read after write -/

/-- Every entry of a sorted tail lies above its head, so an address at or below the head is not in the tail. -/
theorem get_of_lt {m : Memory} {a : Nat} (h : ∀ p ∈ m, a < p.1) : Memory.get c m a = resetByte c a := by
  induction m with
  | nil => rfl
  | cons p m ih =>
    obtain ⟨k, b⟩ := p
    have hk : a < k := h (k, b) (by simp)
    simp only [Memory.get, if_neg (Nat.ne_of_gt hk)]
    exact ih fun q hq => h q (by simp [hq])

/-- A read after a write, on a sorted memory. -/
theorem get_put {m : Memory} (hs : m.Pairwise (fun p q => p.1 < q.1)) (a k : Nat) (b : Byte) :
    Memory.get c (Memory.put c m a b) k = if k = a then b else Memory.get c m k := by
  induction m with
  | nil =>
    unfold Memory.put
    split
    · by_cases e : k = a <;> simp [Memory.get, *]
    · rcases eq_or_ne k a with rfl | e
      · simp [Memory.get]
      · simp [Memory.get, e, e.symm]
  | cons p m ih =>
    obtain ⟨k', old⟩ := p
    obtain ⟨hlt, hs'⟩ := List.pairwise_cons.1 hs
    unfold Memory.put
    dsimp only
    rcases Nat.lt_trichotomy k' a with h | h | h
    · rw [if_pos h]
      simp only [Memory.get, ih hs']
      by_cases e : k = a
      · have : k' ≠ k := by omega
        simp [e, show k' ≠ a by omega]
      · simp [e]
    · subst h
      simp only [Nat.lt_irrefl, if_false, if_true]
      split
      · rename_i hb
        by_cases e : k = k'
        · subst e; rw [get_of_lt hlt]; simp [hb]
        · simp [Memory.get, e, Ne.symm e]
      · rcases eq_or_ne k k' with rfl | e
        · simp [Memory.get]
        · simp [Memory.get, e, e.symm]
    · have h1 : ¬ k' < a := by omega
      have h2 : ¬ k' = a := by omega
      simp only [if_neg h1, if_neg h2]
      split
      · rename_i hb
        by_cases e : k = a
        · subst e
          rw [get_of_lt (m := (k', old) :: m)]
          · simp [hb]
          · intro q hq
            rcases List.mem_cons.1 hq with rfl | hq
            · exact h
            · exact Nat.lt_trans h (hlt q hq)
        · simp [e]
      · rcases eq_or_ne k a with rfl | e
        · simp [Memory.get]
        · simp [Memory.get, e, e.symm]

theorem get_set {m : Memory} (hm : Memory.wf c m) {a : Nat} (ha : a < memSize) (k : Nat) (b : Byte) :
    Memory.get c (Memory.set c m a b) k = if k = a then b else Memory.get c m k := by
  unfold Memory.set
  rw [if_pos ha, get_put hm.1]

/-- A write leaves every other address alone, whatever the list. -/
theorem get_put_ne (m : Memory) {a k : Nat} (b : Byte) (h : k ≠ a) :
    Memory.get c (Memory.put c m a b) k = Memory.get c m k := by
  induction m with
  | nil => unfold Memory.put; split <;> simp [Memory.get, Ne.symm h]
  | cons p m ih =>
    obtain ⟨k', old⟩ := p
    unfold Memory.put
    dsimp only
    split
    · simp [Memory.get, ih]
    · by_cases e : k' = a
      · subst e; simp only [if_true]; split <;> simp [Memory.get, Ne.symm h]
      · simp only [if_neg e]; split <;> simp [Memory.get, Ne.symm h]

theorem get_set_ne (m : Memory) {a k : Nat} (b : Byte) (h : k ≠ a) :
    Memory.get c (Memory.set c m a b) k = Memory.get c m k := by
  unfold Memory.set
  split
  · exact get_put_ne m b h
  · rfl

/-! ### The canonical form -/

/-- Every entry of a memory after a write is an old one or the one written. -/
theorem mem_put {m : Memory} {a : Nat} {b : Byte} {p : Host.Cell} (h : p ∈ Memory.put c m a b) :
    p ∈ m ∨ p = (a, b) ∧ b ≠ resetByte c a := by
  induction m with
  | nil =>
    unfold Memory.put at h
    split at h <;> simp_all
  | cons q m ih =>
    obtain ⟨k, old⟩ := q
    unfold Memory.put at h
    dsimp only at h
    split at h
    · rcases List.mem_cons.1 h with rfl | h
      · simp
      · rcases ih h with h | h <;> simp [h]
    · have tail : p ∈ (if k = a then m else (k, old) :: m) → p ∈ (k, old) :: m := by
        split
        · exact List.mem_cons_of_mem _
        · exact id
      split at h
      · exact .inl (tail h)
      · rename_i hb
        rcases List.mem_cons.1 h with rfl | h
        · exact .inr ⟨rfl, hb⟩
        · exact .inl (tail h)

theorem put_sorted {m : Memory} (hs : m.Pairwise (fun p q => p.1 < q.1)) (a : Nat) (b : Byte) :
    (Memory.put c m a b).Pairwise (fun p q => p.1 < q.1) := by
  induction m with
  | nil => unfold Memory.put; split <;> simp
  | cons q m ih =>
    obtain ⟨k, old⟩ := q
    obtain ⟨hlt, hs'⟩ := List.pairwise_cons.1 hs
    unfold Memory.put
    dsimp only
    split
    · rename_i hk
      refine List.pairwise_cons.2 ⟨fun p hp => ?_, ih hs'⟩
      rcases mem_put hp with hp | ⟨rfl, -⟩
      · exact hlt p hp
      · exact hk
    · rename_i hk
      have rest : (if k = a then m else (k, old) :: m).Pairwise (fun p q => p.1 < q.1) ∧
          ∀ p ∈ (if k = a then m else (k, old) :: m), a < p.1 := by
        split
        · rename_i e; subst e; exact ⟨hs', hlt⟩
        · refine ⟨hs, fun p hp => ?_⟩
          rcases List.mem_cons.1 hp with rfl | hp
          · dsimp only; omega
          · have := hlt p hp; dsimp only at this; omega
      split
      · exact rest.1
      · exact List.pairwise_cons.2 ⟨rest.2, rest.1⟩

/-- A write keeps the canonical form. -/
theorem wf_set {m : Memory} (hm : Memory.wf c m) (a : Nat) (b : Byte) : Memory.wf c (Memory.set c m a b) := by
  unfold Memory.set
  split
  · rename_i ha
    refine ⟨put_sorted hm.1 a b, fun p hp => ?_⟩
    rcases mem_put hp with hp | ⟨rfl, hb⟩
    · exact hm.2 p hp
    · exact ⟨ha, hb⟩
  · exact hm

theorem wf_setBytes {m : Memory} (hm : Memory.wf c m) (base : Nat) (bs : List Byte) :
    Memory.wf c (Memory.setBytes c m base bs) := by
  induction bs generalizing m base with
  | nil => exact hm
  | cons b bs ih => exact ih (wf_set hm base b) (base + 1)

theorem wf_nil : Memory.wf c [] := ⟨List.Pairwise.nil, by simp⟩

/-! ### Several bytes -/

/-- Bytes outside the run are untouched. -/
theorem get_setBytes_outside (m : Memory) {base k : Nat} (bs : List Byte) (h : k < base ∨ base + bs.length ≤ k) :
    Memory.get c (Memory.setBytes c m base bs) k = Memory.get c m k := by
  induction bs generalizing m base with
  | nil => rfl
  | cons b bs ih =>
    rw [List.length_cons] at h
    rw [Memory.setBytes, ih _ (by omega), get_set_ne _ _ (by omega)]

/-- A byte of the run is the one stored there. -/
theorem get_setBytes {m : Memory} (hm : Memory.wf c m) {base : Nat} {bs : List Byte}
    (hfit : base + bs.length ≤ memSize) {j : Nat} (hj : j < bs.length) :
    Memory.get c (Memory.setBytes c m base bs) (base + j) = bs[j] := by
  induction bs generalizing m base j with
  | nil => simp at hj
  | cons b bs ih =>
    rw [List.length_cons] at hfit hj
    rw [Memory.setBytes]
    cases j with
    | zero =>
      rw [get_setBytes_outside _ _ (by omega), get_set hm (by omega)]
      simp
    | succ j =>
      have := ih (wf_set hm base b) (base := base + 1) (j := j) (by omega) (by omega)
      rw [show base + (j + 1) = base + 1 + j by omega, this]
      simp

/-- Canonical memories with equal contents are equal lists. -/
theorem ext {m m' : Memory} (hm : Memory.wf c m) (hm' : Memory.wf c m')
    (h : ∀ a, Memory.get c m a = Memory.get c m' a) : m = m' := by
  induction m generalizing m' with
  | nil =>
    cases m' with
    | nil => rfl
    | cons p m' =>
      obtain ⟨k, b⟩ := p
      have := h k
      have hb := (hm'.2 (k, b) (by simp)).2
      simp [Memory.get] at this
      exact absurd this.symm hb
  | cons p m ih =>
    obtain ⟨k, b⟩ := p
    obtain ⟨hlt, hs⟩ := List.pairwise_cons.1 hm.1
    have hb := (hm.2 (k, b) (by simp)).2
    cases m' with
    | nil =>
      have := h k
      simp [Memory.get] at this
      exact absurd this hb
    | cons p' m' =>
      obtain ⟨k', b'⟩ := p'
      obtain ⟨hlt', hs'⟩ := List.pairwise_cons.1 hm'.1
      have hb' := (hm'.2 (k', b') (by simp)).2
      have hk : k = k' := by
        rcases Nat.lt_trichotomy k k' with l | e | l
        · have e1 := h k
          rw [get_of_lt (m := (k', b') :: m')] at e1
          · simp [Memory.get] at e1; exact absurd e1 hb
          · intro q hq
            rcases List.mem_cons.1 hq with rfl | hq
            · exact l
            · exact Nat.lt_trans l (hlt' q hq)
        · exact e
        · have e1 := h k'
          rw [get_of_lt (m := (k, b) :: m)] at e1
          · simp [Memory.get] at e1; exact absurd e1.symm hb'
          · intro q hq
            rcases List.mem_cons.1 hq with rfl | hq
            · exact l
            · exact Nat.lt_trans l (hlt q hq)
      subst hk
      have hbb : b = b' := by simpa [Memory.get] using h k
      subst hbb
      congr 1
      refine ih ⟨hs, fun q hq => hm.2 q (by simp [hq])⟩ ⟨hs', fun q hq => hm'.2 q (by simp [hq])⟩ fun a => ?_
      by_cases e : k = a
      · subst e; rw [get_of_lt hlt, get_of_lt hlt']
      · simpa [Memory.get, e] using h a

end Sys2Proof.Machine.Memory

namespace Sys2Proof.Machine.State

/-- `writeBytes`, read back: the stored byte inside the run, the old one outside. -/
theorem readByte_writeBytes_outside (s : State) {base k : Nat} (bs : List Byte)
    (h : k < base ∨ base + bs.length ≤ k) : (s.writeBytes base bs).readByte k = s.readByte k :=
  Memory.get_setBytes_outside s.mem bs h

theorem readByte_writeBytes (s : State) (hm : Memory.wf s.cfg s.mem) {base : Nat} {bs : List Byte}
    (hfit : base + bs.length ≤ memSize) {j : Nat} (hj : j < bs.length) :
    (s.writeBytes base bs).readByte (base + j) = bs[j] :=
  Memory.get_setBytes hm hfit hj

end Sys2Proof.Machine.State
end

