-- ==== Sys2Proof/Laws/Checks.lean ====
section
/-! SUPPORT. The address checks in closed form: when they pass, and which fault they find. -/

namespace Sys2Proof.Machine

theorem find_range_succ (p : Nat → Bool) (base n : Nat) :
    ((List.range (n + 1)).map (base + ·)).find? p =
      (((List.range n).map (base + ·)).find? p).or (if p (base + n) then some (base + n) else none) := by
  rw [List.range_succ, List.map_append, List.find?_append]
  simp

/-- The range check: it fails exactly when the run is not empty and reaches past 0xFFF. -/
theorem outOfRange?_eq (base n : Nat) :
    outOfRange? base n = if 0 < n ∧ 0x1000 < base + n then some (firstBeyond base) else none := by
  unfold outOfRange?
  induction n with
  | zero => simp
  | succ n ih =>
    rw [find_range_succ, ih]
    by_cases last : 0x1000 < base + (n + 1)
    · rw [if_pos (show 0 < n + 1 ∧ 0x1000 < base + (n + 1) from ⟨by omega, last⟩),
        if_pos (show decide (0xFFF < base + n) = true by simp; omega)]
      by_cases h : 0 < n ∧ 0x1000 < base + n
      · rw [if_pos h]; rfl
      · rw [if_neg h]
        simp only [Option.none_or, Option.some.injEq, firstBeyond]
        omega
    · rw [if_neg (show ¬(0 < n + 1 ∧ 0x1000 < base + (n + 1)) from fun h => last h.2),
        if_neg (show ¬decide (0xFFF < base + n) = true by simp; omega),
        if_neg (show ¬(0 < n ∧ 0x1000 < base + n) by omega)]
      rfl

/-- The reserved-range check: it fails exactly when the policy is FAULT and the run starts below 0x200. -/
theorem reserved?_eq (c : Config) (base n : Nat) :
    reserved? c base n =
      if c.lowWritePolicy = .fault ∧ 0 < n ∧ base < 0x200 then some base else none := by
  unfold reserved?
  cases c.lowWritePolicy with
  | write => simp
  | fault =>
    simp only [true_and]
    induction n with
    | zero => simp
    | succ n ih =>
      rw [find_range_succ, ih]
      by_cases low : base < 0x200
      · rw [if_pos (show 0 < n + 1 ∧ base < 0x200 from ⟨by omega, low⟩)]
        by_cases h : 0 < n
        · rw [if_pos ⟨h, low⟩]; rfl
        · obtain rfl : n = 0 := by omega
          simp [low]
      · rw [if_neg (show ¬(0 < n + 1 ∧ base < 0x200) from fun h => low h.2),
          if_neg (show ¬(0 < n ∧ base < 0x200) from fun h => low h.2),
          if_neg (show ¬decide (base + n < programBase) = true by simp [programBase]; omega)]
        rfl

theorem readTrap_eq (base n : Nat) :
    readTrap base n =
      if 0 < n ∧ 0x1000 < base + n then some ⟨.memoryOutOfRange, .addr (firstBeyond base)⟩ else none := by
  rw [readTrap, outOfRange?_eq]
  split <;> rfl

theorem readTrap_eq_none {base n : Nat} : readTrap base n = none ↔ n = 0 ∨ base + n ≤ 0x1000 := by
  rw [readTrap_eq]
  split
  · simp; omega
  · simp; omega

theorem writeTrap_eq (c : Config) (base n : Nat) :
    writeTrap c base n =
      if 0 < n ∧ 0x1000 < base + n then some ⟨.memoryOutOfRange, .addr (firstBeyond base)⟩
      else if c.lowWritePolicy = .fault ∧ 0 < n ∧ base < 0x200 then some ⟨.reservedWrite, .addr base⟩
      else none := by
  rw [writeTrap, outOfRange?_eq, reserved?_eq]
  by_cases h : 0 < n ∧ 0x1000 < base + n
  · simp only [if_pos h]
  · simp only [if_neg h]
    split <;> rfl

theorem writeTrap_eq_none {c : Config} {base n : Nat} (hn : 0 < n) :
    writeTrap c base n = none ↔ base + n ≤ 0x1000 ∧ (c.lowWritePolicy = .write ∨ 0x200 ≤ base) := by
  rw [writeTrap_eq]
  have hp : c.lowWritePolicy = .fault ∨ c.lowWritePolicy = .write := by
    cases c.lowWritePolicy <;> simp
  split
  · simp; omega
  · split
    · rename_i h; simp [h.1]; omega
    · rename_i h
      simp only [true_iff]
      refine ⟨by omega, ?_⟩
      rcases hp with hp | hp
      · right; simp only [hp, true_and, not_and, Nat.not_lt] at h; exact h hn
      · exact .inl hp

/-! ### Guarded meanings -/

@[simp] theorem guarded_none (bits : Word) (s : State) (body : Host.Outcome State Fault Refusal) :
    guarded none bits s body = body := rfl

@[simp] theorem guarded_some (t : Trap) (bits : Word) (s : State) (body : Host.Outcome State Fault Refusal) :
    guarded (some t) bits s body = .next (s.raise t (some bits)) := rfl

/-- What a guarded meaning can answer: the fault its check found, or what its body answers. -/
theorem guarded_cases {trap : Option Trap} {bits : Word} {s t : State}
    {body : Host.Outcome State Fault Refusal} (h : guarded trap bits s body = .next t) :
    (∃ r, trap = some r ∧ t = s.raise r (some bits)) ∨ (trap = none ∧ body = .next t) := by
  cases trap with
  | none => exact .inr ⟨rfl, h⟩
  | some r =>
    simp only [guarded_some, Host.Outcome.next.injEq] at h
    exact .inl ⟨r, rfl, h.symm⟩

/-- The digit check finds a fault exactly when V[x] is above 0xF. -/
theorem digitTrap_eq (s : State) (x : Reg) :
    s.digitTrap x =
      if 0xF < (s.getV x).toNat then some ⟨.operandOutOfRange, .value (s.getV x)⟩ else none := by
  unfold State.digitTrap
  simp [BitVec.lt_def]

end Sys2Proof.Machine
end

