-- ==== Sys2Proof/Laws/Decode.lean ====
section
/-! SUPPORT. The fields of a word built by a format are the fields it was built from, and the table's masks in terms of
the fields. -/

namespace Sys2Proof

/-! ### The bits of a format -/

section
variable (op : Nibble) (nnn : Addr12) (x y : Reg) (n : Nibble) (kk : Byte)

theorem getLsbD_formatNNN (i : Nat) :
    (formatNNN op nnn).getLsbD i = if i < 12 then nnn.getLsbD i else op.getLsbD (i - 12) :=
  BitVec.getLsbD_append

theorem getLsbD_formatXKK (i : Nat) :
    (formatXKK op x kk).getLsbD i =
      if i < 12 then if i < 8 then kk.getLsbD i else x.getLsbD (i - 8) else op.getLsbD (i - 12) := by
  have inner : (x ++ kk).getLsbD i = if i < 8 then kk.getLsbD i else x.getLsbD (i - 8) := BitVec.getLsbD_append
  rw [← inner]
  exact BitVec.getLsbD_append

theorem getLsbD_formatXYN (i : Nat) :
    (formatXYN op x y n).getLsbD i =
      if i < 12 then if i < 8 then if i < 4 then n.getLsbD i else y.getLsbD (i - 4) else x.getLsbD (i - 8)
      else op.getLsbD (i - 12) := by
  have innermost : (y ++ n).getLsbD i = if i < 4 then n.getLsbD i else y.getLsbD (i - 4) := BitVec.getLsbD_append
  have inner : (x ++ (y ++ n)).getLsbD i = if i < 8 then (y ++ n).getLsbD i else x.getLsbD (i - 8) :=
    BitVec.getLsbD_append
  rw [← innermost, ← inner]
  exact BitVec.getLsbD_append

/-! ### The fields of a format -/

theorem fieldOp_formatNNN : fieldOp (formatNNN op nnn) = op := by
  apply BitVec.eq_of_getLsbD_eq
  intro i hi
  simp only [fieldOp, BitVec.getLsbD_extractLsb', getLsbD_formatNNN]
  simp [hi]

theorem fieldNNN_formatNNN : fieldNNN (formatNNN op nnn) = nnn := by
  apply BitVec.eq_of_getLsbD_eq
  intro i hi
  simp only [fieldNNN, BitVec.getLsbD_extractLsb', getLsbD_formatNNN]
  simp [hi]

theorem fieldOp_formatXKK : fieldOp (formatXKK op x kk) = op := by
  apply BitVec.eq_of_getLsbD_eq
  intro i hi
  simp only [fieldOp, BitVec.getLsbD_extractLsb', getLsbD_formatXKK]
  simp [hi]

theorem fieldX_formatXKK : fieldX (formatXKK op x kk) = x := by
  apply BitVec.eq_of_getLsbD_eq
  intro i hi
  simp only [fieldX, BitVec.getLsbD_extractLsb', getLsbD_formatXKK]
  simp [hi, show 8 + i < 12 by omega]

theorem fieldKK_formatXKK : fieldKK (formatXKK op x kk) = kk := by
  apply BitVec.eq_of_getLsbD_eq
  intro i hi
  simp only [fieldKK, BitVec.getLsbD_extractLsb', getLsbD_formatXKK]
  simp [hi, show i < 12 by omega]

theorem fieldOp_formatXYN : fieldOp (formatXYN op x y n) = op := by
  apply BitVec.eq_of_getLsbD_eq
  intro i hi
  simp only [fieldOp, BitVec.getLsbD_extractLsb', getLsbD_formatXYN]
  simp [hi]

theorem fieldX_formatXYN : fieldX (formatXYN op x y n) = x := by
  apply BitVec.eq_of_getLsbD_eq
  intro i hi
  simp only [fieldX, BitVec.getLsbD_extractLsb', getLsbD_formatXYN]
  simp [hi, show 8 + i < 12 by omega]

theorem fieldY_formatXYN : fieldY (formatXYN op x y n) = y := by
  apply BitVec.eq_of_getLsbD_eq
  intro i hi
  simp only [fieldY, BitVec.getLsbD_extractLsb', getLsbD_formatXYN]
  simp [hi, show 4 + i < 12 by omega, show 4 + i < 8 by omega]

theorem fieldN_formatXYN : fieldN (formatXYN op x y n) = n := by
  apply BitVec.eq_of_getLsbD_eq
  intro i hi
  simp only [fieldN, BitVec.getLsbD_extractLsb', getLsbD_formatXYN]
  simp [hi, show i < 12 by omega, show i < 8 by omega]

end

/-! ### A word is what its fields make it -/

theorem formatNNN_fields (w : Word) : formatNNN (fieldOp w) (fieldNNN w) = w := by
  apply BitVec.eq_of_getLsbD_eq
  intro i hi
  simp only [getLsbD_formatNNN, fieldOp, fieldNNN, BitVec.getLsbD_extractLsb']
  split
  · simp [*]
  · simp [show i - 12 < 4 by omega, show 12 + (i - 12) = i by omega]

theorem formatXKK_fields (w : Word) : formatXKK (fieldOp w) (fieldX w) (fieldKK w) = w := by
  apply BitVec.eq_of_getLsbD_eq
  intro i hi
  simp only [getLsbD_formatXKK, fieldOp, fieldX, fieldKK, BitVec.getLsbD_extractLsb']
  split
  · split
    · simp [*]
    · simp [show i - 8 < 4 by omega, show 8 + (i - 8) = i by omega]
  · simp [show i - 12 < 4 by omega, show 12 + (i - 12) = i by omega]

theorem formatXYN_fields (w : Word) : formatXYN (fieldOp w) (fieldX w) (fieldY w) (fieldN w) = w := by
  apply BitVec.eq_of_getLsbD_eq
  intro i hi
  simp only [getLsbD_formatXYN, fieldOp, fieldX, fieldY, fieldN, BitVec.getLsbD_extractLsb']
  split
  · split
    · split
      · simp [*]
      · simp [show i - 4 < 4 by omega, show 4 + (i - 4) = i by omega]
    · simp [show i - 8 < 4 by omega, show 8 + (i - 8) = i by omega]
  · simp [show i - 12 < 4 by omega, show 12 + (i - 12) = i by omega]

/-- A word's two bytes make the word again (spec/20_memory.md R39). -/
theorem wordOfBytes_bytes (w : Word) : wordOfBytes (w.extractLsb' 8 8) (w.extractLsb' 0 8) = w := by
  apply BitVec.eq_of_getLsbD_eq
  intro i hi
  have bits : (wordOfBytes (w.extractLsb' 8 8) (w.extractLsb' 0 8)).getLsbD i =
      if i < 8 then (w.extractLsb' 0 8).getLsbD i else (w.extractLsb' 8 8).getLsbD (i - 8) := BitVec.getLsbD_append
  rw [bits]
  simp only [BitVec.getLsbD_extractLsb']
  split
  · simp [*]
  · simp [show i - 8 < 8 by omega, show 8 + (i - 8) = i by omega]

/-! ### The table's masks in terms of the fields -/

/-- The mask of formats NNN, XKK and XYN keeps the op digit. -/
theorem and_F000 (w : Word) : w &&& 0xF000#16 = formatNNN (fieldOp w) 0 := by
  apply BitVec.eq_of_getLsbD_eq
  intro i hi
  have mask : ∀ j < 16, (0xF000#16).getLsbD j = decide (12 ≤ j) := by decide
  simp only [BitVec.getLsbD_and, mask i hi, getLsbD_formatNNN, fieldOp, BitVec.getLsbD_extractLsb']
  by_cases h : i < 12
  · simp [h]
  · simp [h, show 12 ≤ i by omega, show i - 12 < 4 by omega, show 12 + (i - 12) = i by omega]

/-- The mask of format XY keeps the op digit and the low digit. -/
theorem and_F00F (w : Word) : w &&& 0xF00F#16 = formatXYN (fieldOp w) 0 0 (fieldN w) := by
  apply BitVec.eq_of_getLsbD_eq
  intro i hi
  have mask : ∀ j < 16, (0xF00F#16).getLsbD j = (decide (12 ≤ j) || decide (j < 4)) := by decide
  simp only [BitVec.getLsbD_and, mask i hi, getLsbD_formatXYN, fieldOp, fieldN, BitVec.getLsbD_extractLsb']
  by_cases h : i < 12
  · by_cases h4 : i < 4
    · simp [h, h4, show i < 8 by omega]
    · simp [h, h4, show ¬12 ≤ i by omega]
  · simp [h, show 12 ≤ i by omega, show i - 12 < 4 by omega, show 12 + (i - 12) = i by omega]

/-- The mask of format X keeps the op digit and the low byte. -/
theorem and_F0FF (w : Word) : w &&& 0xF0FF#16 = formatXKK (fieldOp w) 0 (fieldKK w) := by
  apply BitVec.eq_of_getLsbD_eq
  intro i hi
  have mask : ∀ j < 16, (0xF0FF#16).getLsbD j = (decide (12 ≤ j) || decide (j < 8)) := by decide
  simp only [BitVec.getLsbD_and, mask i hi, getLsbD_formatXKK, fieldOp, fieldKK, BitVec.getLsbD_extractLsb']
  by_cases h : i < 12
  · by_cases h8 : i < 8
    · simp [h, h8]
    · simp [h, h8, show ¬12 ≤ i by omega]
  · simp [h, show 12 ≤ i by omega, show i - 12 < 4 by omega, show 12 + (i - 12) = i by omega]

end Sys2Proof
end

