-- ==== Sys2Proof/Laws/Registers.lean ====
section
/-! SUPPORT. The register lists of Fx55 and Fx65. -/

namespace Sys2Proof.Machine

@[simp] theorem lowRegs_length (s : State) (x : Reg) : (s.lowRegs x).length = x.toNat + 1 := by
  have := x.isLt
  simp [State.lowRegs, regCount]
  omega

/-- The j-th register Fx55 stores is V[j]. -/
theorem lowRegs_getElem (s : State) (x r : Reg) (h : r.toNat < (s.lowRegs x).length) :
    (s.lowRegs x)[r.toNat] = s.getV r := by
  simp [State.lowRegs, State.getV]

@[simp] theorem readBytes_length (s : State) (base n : Nat) : (s.readBytes base n).length = n := by
  simp [State.readBytes]

theorem readBytes_getElem (s : State) (base n j : Nat) (h : j < (s.readBytes base n).length) :
    (s.readBytes base n)[j] = s.readByte (base + j) := by
  simp [State.readBytes]

/-- A register file after a load: the loaded byte in the run, the old register outside it. -/
theorem loadRegs_getElem (j : Nat) (bs : List Byte) (v : Vector Byte 16) (k : Nat) (hk : k < 16) :
    (loadRegs j bs v)[k] = if h : j ≤ k ∧ k - j < bs.length then bs[k - j]'h.2 else v[k] := by
  induction bs generalizing j v with
  | nil => simp [loadRegs]
  | cons b bs ih =>
    rw [loadRegs, ih]
    by_cases h : j + 1 ≤ k ∧ k - (j + 1) < bs.length
    · have h' : j ≤ k ∧ k - j < (b :: bs).length := by simp only [List.length_cons]; omega
      rw [dif_pos h, dif_pos h', List.getElem_cons, dif_neg (by omega)]
      congr 1
    · rw [dif_neg h, Vector.getElem_setIfInBounds]
      by_cases e : j = k
      · subst e; simp
      · have h' : ¬(j ≤ k ∧ k - j < (b :: bs).length) := by
          simp only [List.length_cons]; omega
        rw [dif_neg h', if_neg e]

end Sys2Proof.Machine
end

