-- ==== Sys2Proof/Laws/Display.lean ====
section
/-! SUPPORT. Drawing: the loop of spec/43_display.md R104 toggles exactly the pixels under the sprite's 1 bits, and collides
exactly when one of them was on. -/

namespace Sys2Proof.Machine

/-- A pixel after a toggle. -/
theorem pixel_flip (d : Display) (r r' : Fin 32) (c c' : Fin 64) :
    (d.flip r c).pixel r' c' = if r' = r ∧ c' = c then !d.pixel r c else d.pixel r' c' := by
  unfold Display.flip Display.pixel
  simp only [Vector.get_eq_getElem, Vector.getElem_set]
  by_cases hr : r' = r
  · subst hr
    by_cases hc : c' = c
    · subst hc; simp
    · have : c.val ≠ c'.val := fun e => hc (Fin.ext e.symm)
      simp [hc, this]
  · have : r.val ≠ r'.val := fun e => hr (Fin.ext e.symm)
    simp [hr, this]

@[simp] theorem pixel_blank (r : Fin 32) (c : Fin 64) : Display.blank.pixel r c = false := by
  simp [Display.blank, Display.pixel, Vector.get_eq_getElem]

/-- Displays with the same pixels are equal. -/
theorem display_ext {d d' : Display} (h : ∀ r c, d.pixel r c = d'.pixel r c) : d = d' := by
  apply Vector.ext
  intro r hr
  apply Vector.ext
  intro c hc
  have := h ⟨r, hr⟩ ⟨c, hc⟩
  simpa [Display.pixel, Vector.get_eq_getElem] using this

/-- What a drawing loop does, for the set of pixels it toggles. -/
def Draws (hit : Fin 32 → Fin 64 → Bool) (acc acc' : Display × Bool) : Prop :=
  (∀ r c, acc'.1.pixel r c = (acc.1.pixel r c ^^ hit r c)) ∧
    (acc'.2 = true ↔ acc.2 = true ∨ ∃ r c, hit r c = true ∧ acc.1.pixel r c = true)

/-- Drawing no pixel. -/
theorem Draws.rfl {hit : Fin 32 → Fin 64 → Bool} (h : ∀ r c, hit r c = false) (acc : Display × Bool) :
    Draws hit acc acc := by
  constructor
  · simp [h]
  · simp [h]

/-- Two drawings of disjoint sets are one drawing of their union. -/
theorem Draws.trans {hit₁ hit₂ hit : Fin 32 → Fin 64 → Bool} {a b d : Display × Bool}
    (h₁ : Draws hit₁ a b) (h₂ : Draws hit₂ b d) (union : ∀ r c, hit r c = (hit₁ r c || hit₂ r c))
    (disjoint : ∀ r c, ¬(hit₁ r c = true ∧ hit₂ r c = true)) : Draws hit a d := by
  constructor
  · intro r c
    rw [h₂.1, h₁.1, union]
    have := disjoint r c
    revert this
    cases hit₁ r c <;> cases hit₂ r c <;> simp
  · rw [h₂.2, h₁.2]
    constructor
    · rintro ((h | ⟨r, c, h, on⟩) | ⟨r, c, h, on⟩)
      · exact .inl h
      · exact .inr ⟨r, c, by simp [union, h], on⟩
      · refine .inr ⟨r, c, by simp [union, h], ?_⟩
        have off : hit₁ r c = false := by
          have := disjoint r c
          simp only [h, and_true, Bool.not_eq_true] at this
          exact this
        rw [h₁.1, off] at on
        simpa using on
    · rintro (h | ⟨r, c, h, on⟩)
      · exact .inl (.inl h)
      · rw [union, Bool.or_eq_true] at h
        rcases h with h | h
        · exact .inl (.inr ⟨r, c, h, on⟩)
        · refine .inr ⟨r, c, h, ?_⟩
          have off : hit₁ r c = false := by
            have := disjoint r c
            simp only [h, and_true, Bool.not_eq_true] at this
            exact this
          rw [h₁.1, off]
          simpa using on

/-- One pixel. -/
theorem drawPixel_draws (r : Fin 32) (c : Fin 64) (acc : Display × Bool) :
    Draws (fun r' c' => decide (r' = r ∧ c' = c)) acc (drawPixel r c acc) := by
  constructor
  · intro r' c'
    simp only [drawPixel, pixel_flip]
    by_cases h : r' = r ∧ c' = c
    · obtain ⟨rfl, rfl⟩ := h; simp
    · simp [h]
  · simp only [drawPixel, Bool.or_eq_true, decide_eq_true_eq]
    constructor
    · rintro (h | h)
      · exact .inl h
      · exact .inr ⟨r, c, ⟨rfl, rfl⟩, h⟩
    · rintro (h | ⟨_, _, ⟨rfl, rfl⟩, h⟩)
      · exact .inl h
      · exact .inr h

/-- How many columns right of cx a column is, around the edge. -/
def rightOf (cx : Nat) (c : Fin 64) : Nat := (c.val + 64 - cx) % 64

/-- How many rows below cy a row is, around the edge. -/
def below (cy : Nat) (r : Fin 32) : Nat := (r.val + 32 - cy) % 32

/-- The first k columns of a sprite row. -/
theorem drawRow_prefix {cx : Nat} (hcx : cx < 64) (cy : Nat) (b : Byte) (acc : Display × Bool) (k : Nat) (hk : k ≤ 8) :
    Draws (fun r c => decide (r = Fin.ofNat 32 cy) && decide (rightOf cx c < k) && b.getLsbD (7 - rightOf cx c)) acc
      ((List.range k).foldl
        (fun acc c => if b.getLsbD (7 - c) then drawPixel (Fin.ofNat 32 cy) (Fin.ofNat 64 (cx + c)) acc else acc) acc) := by
  induction k with
  | zero => exact Draws.rfl (by simp) acc
  | succ k ih =>
    rw [List.range_succ, List.foldl_append]
    have column : ∀ c : Fin 64, rightOf cx c = k ↔ c = Fin.ofNat 64 (cx + k) := by
      intro c
      rw [Fin.ext_iff, rightOf]
      simp only [Fin.val_ofNat]
      have := c.isLt
      omega
    simp only [List.foldl_cons, List.foldl_nil]
    have ih := ih (by omega)
    generalize Fin.ofNat 64 (cx + k) = col at column ⊢
    generalize Fin.ofNat 32 cy = row at ih ⊢
    by_cases bit : b.getLsbD (7 - k) = true
    · rw [if_pos bit]
      refine ih.trans (drawPixel_draws _ _ _) (fun r c => ?_) (fun r c => ?_)
      · by_cases e : rightOf cx c = k
        · simp [(column c).1 e, (column col).2 rfl, bit]
        · have e' : c ≠ col := fun h => e ((column c).2 h)
          have : rightOf cx c < k + 1 ↔ rightOf cx c < k := by omega
          simp only [e', and_false, decide_false, Bool.or_false, this]
      · rintro ⟨h₁, h₂⟩
        simp only [decide_eq_true_eq, Bool.and_eq_true] at h₁ h₂
        have := (column c).2 h₂.2
        omega
    · rw [if_neg bit]
      have keep : (fun (r : Fin 32) (c : Fin 64) =>
          decide (r = row) && decide (rightOf cx c < k + 1) && b.getLsbD (7 - rightOf cx c)) =
          fun r c => decide (r = row) && decide (rightOf cx c < k) && b.getLsbD (7 - rightOf cx c) := by
        funext r c
        by_cases e : rightOf cx c = k
        · simp [e, bit]
        · have : rightOf cx c < k + 1 ↔ rightOf cx c < k := by omega
          simp only [this]
      rw [keep]
      exact ih

/-- The sprite's bytes, from row cy down. -/
theorem drawRows_draws {cx : Nat} (hcx : cx < 64) (bs : List Byte) (hbs : bs.length ≤ 16) (cy : Nat)
    (acc : Display × Bool) :
    Draws (fun r c => decide (rightOf cx c < 8) && (bs.getD (below (cy % 32) r) 0#8).getLsbD (7 - rightOf cx c)) acc
      (drawRows cx cy bs acc) := by
  induction bs generalizing cy acc with
  | nil => exact Draws.rfl (by simp) acc
  | cons b bs ih =>
    rw [List.length_cons] at hbs
    have first : Draws
        (fun r c => decide (r = Fin.ofNat 32 cy) && decide (rightOf cx c < 8) && b.getLsbD (7 - rightOf cx c)) acc
        (drawRow cx cy b acc) := drawRow_prefix hcx cy b acc 8 (by omega)
    have top : ∀ r : Fin 32, r = Fin.ofNat 32 cy ↔ below (cy % 32) r = 0 := by
      intro r
      rw [Fin.ext_iff, below]
      simp only [Fin.val_ofNat]
      have := r.isLt
      omega
    generalize Fin.ofNat 32 cy = row at first top
    have lower : ∀ r : Fin 32, below (cy % 32) r ≠ 0 → below ((cy + 1) % 32) r = below (cy % 32) r - 1 := by
      intro r
      have := r.isLt
      unfold below
      omega
    have last : ∀ r : Fin 32, below (cy % 32) r = 0 → below ((cy + 1) % 32) r = 31 := by
      intro r
      have := r.isLt
      unfold below
      omega
    have outside : bs.getD 31 0#8 = 0#8 := by
      rw [List.getD_eq_default]
      omega
    refine first.trans (ih (by omega) (cy + 1) _) (fun r c => ?_) (fun r c => ?_)
    · by_cases h : below (cy % 32) r = 0
      · rw [h, last r h, outside]
        simp [(top r).2 h]
      · rw [lower r h]
        have hr : r ≠ row := fun e => h ((top r).1 e)
        obtain ⟨m, hm⟩ : ∃ m, below (cy % 32) r = m + 1 := ⟨below (cy % 32) r - 1, by omega⟩
        simp [hr, hm]
    · rintro ⟨h₁, h₂⟩
      simp only [Bool.and_eq_true, decide_eq_true_eq] at h₁ h₂
      have h := (top r).1 h₁.1.1
      rw [last r h, outside] at h₂
      simp at h₂

/-- Everything a draw does: the pixels under the sprite's 1 bits are toggled, and it collides exactly when one of them
was on (spec/43_display.md R104). -/
theorem drawSprite_draws (s : State) (base n : Nat) (hn : n ≤ 15) {cx cy : Nat} (hcx : cx < 64) (hcy : cy < 32)
    (d : Display) :
    Draws (spriteBit (fun j => s.readByte (base + j)) n cy cx) (d, false)
      (drawSprite cx cy (s.readBytes base n) d) := by
  have rows := drawRows_draws hcx (s.readBytes base n) (by simp; omega) cy (d, false)
  have same : spriteBit (fun j => s.readByte (base + j)) n cy cx =
      fun r c => decide (rightOf cx c < 8) &&
        ((s.readBytes base n).getD (below (cy % 32) r) 0#8).getLsbD (7 - rightOf cx c) := by
    funext r c
    rw [Nat.mod_eq_of_lt hcy]
    show (decide (below cy r < n) && decide (rightOf cx c < 8) && _) = _
    by_cases h : below cy r < n
    · have : (s.readBytes base n).getD (below cy r) 0#8 = s.readByte (base + below cy r) := by
        rw [List.getD_eq_getElem _ _ (by simpa using h), readBytes_getElem]
      rw [this]
      simp only [h, decide_true, Bool.true_and]
      rfl
    · have : (s.readBytes base n).getD (below cy r) 0#8 = 0#8 := by
        rw [List.getD_eq_default]
        simpa using h
      rw [this]
      simp [h]
  rw [same]
  exact rows

end Sys2Proof.Machine
end

