-- ==== Sys2Proof/Laws/Keys.lean ====
section
/-! SUPPORT. `lowest_set` and the key-press edges. -/

namespace Sys2Proof.Machine

theorem lowestSet?_eq_none {m : Word} : lowestSet? m = none ↔ m = 0#16 := by
  unfold lowestSet?
  rw [List.find?_eq_none]
  constructor
  · intro h
    apply BitVec.eq_of_getLsbD_eq
    intro k hk
    have := h k (List.mem_range.2 hk)
    simpa using this
  · rintro rfl
    simp

/-- The key found is set, and none below it is. -/
theorem lowestSet?_eq_some {m : Word} {k : Nat} (h : lowestSet? m = some k) :
    k < 16 ∧ m.getLsbD k = true ∧ ∀ j, j < k → m.getLsbD j = false := by
  unfold lowestSet? at h
  rw [List.find?_range_eq_some] at h
  obtain ⟨bit, mem, low⟩ := h
  refine ⟨List.mem_range.1 mem, bit, fun j hj => ?_⟩
  simpa using low j hj

theorem lowestSet?_isSome {m : Word} (h : m ≠ 0#16) : ∃ k, lowestSet? m = some k := by
  cases e : lowestSet? m with
  | none => exact absurd (lowestSet?_eq_none.1 e) h
  | some k => exact ⟨k, rfl⟩

/-- Key k has a key-press edge exactly when it is pressed and was not before (spec/44_timers_keys.md R112). -/
theorem keyEdges_getLsbD (s : State) {k : Nat} (hk : k < 16) :
    s.keyEdges.getLsbD k = (s.keys.getLsbD k && !s.keysPrev.getLsbD k) := by
  simp [State.keyEdges, hk]

/-- Consuming a press takes away its edge and no other. -/
theorem keyEdges_consumeKey (s : State) {k j : Nat} (hj : j < 16) :
    (s.consumeKey k).keyEdges.getLsbD j = (s.keyEdges.getLsbD j && decide (j ≠ k)) := by
  rw [keyEdges_getLsbD _ hj, keyEdges_getLsbD _ hj]
  simp only [State.consumeKey_eq, State.setKeysPrev_keys, State.setKeysPrev_keysPrev, BitVec.getLsbD_or,
    BitVec.getLsbD_shiftLeft, hj, decide_true, Bool.true_and]
  have one : (1#16).getLsbD (j - k) = decide (j - k = 0) := by
    rw [BitVec.getLsbD_one]; simp
  rw [one]
  rcases Nat.lt_trichotomy j k with h | h | h
  · have : j ≠ k := by omega
    simp [h, this]
  · simp [h]
  · have : j ≠ k := by omega
    have : ¬ j < k := by omega
    have : j - k ≠ 0 := by omega
    simp [*]

end Sys2Proof.Machine
end

