-- ==== Sys2Proof/Laws/Stack.lean ====
section
/-! SUPPORT. The call stack: when Push and Pop succeed, and what they change. -/

namespace Sys2Proof.Machine.State

theorem push_eq_none {s : State} {v : Word} : s.push v = none ↔ s.sp.val = 16 := by
  have := s.sp.isLt
  unfold push
  split <;> simp <;> omega

/-- Everything a Push does. -/
theorem push_cases {s t : State} {v : Word} (h : s.push v = some t) :
    s.sp.val < 16 ∧ t.sp.val = s.sp.val + 1 ∧ t.stack[s.sp.val]? = some v ∧
      (∀ j, j ≠ s.sp.val → t.stack[j]? = s.stack[j]?) ∧ t = { s with sp := t.sp, stack := t.stack } := by
  unfold push at h
  split at h
  · rename_i hs
    cases h
    refine ⟨hs, rfl, ?_, fun j hj => ?_, rfl⟩
    · simp
    · exact Vector.getElem?_set_ne hs (Ne.symm hj)
  · cases h

theorem push_isSome {s : State} (v : Word) (h : s.sp.val < 16) : ∃ t, s.push v = some t := by
  unfold push
  rw [dif_pos h]
  exact ⟨_, rfl⟩

theorem pop_eq_none {s : State} : s.pop = none ↔ s.sp.val = 0 := by
  unfold pop
  split <;> simp <;> omega

/-- Everything a Pop does. -/
theorem pop_cases {s t : State} {v : Word} (h : s.pop = some (v, t)) :
    0 < s.sp.val ∧ t.sp.val = s.sp.val - 1 ∧ s.stack[s.sp.val - 1]? = some v ∧ t = { s with sp := t.sp } := by
  unfold pop at h
  split at h
  · rename_i hs
    cases h
    exact ⟨hs, rfl, by simp, rfl⟩
  · cases h

theorem pop_isSome {s : State} (h : 0 < s.sp.val) : ∃ v t, s.pop = some (v, t) := by
  unfold pop
  rw [dif_pos h]
  exact ⟨_, _, rfl⟩

end Sys2Proof.Machine.State
end

