-- ==== Sys2Proof/Laws/Exec.lean ====
section
/-! SUPPORT. What any instruction can do, said once: it takes a fault, or it completes within the bounds below. -/

namespace Sys2Proof.Machine

/-- What every completed instruction leaves alone, and the two things that are not every instruction's. -/
structure Completed (i : Instr) (s t : State) : Prop where
  cfg : t.cfg = s.cfg
  keys : t.keys = s.keys
  events : t.events = s.events
  fault : t.fault = s.fault
  timers : (∀ x, i ≠ .ldDTVx x) → (∀ x, i ≠ .ldSTVx x) → t.dt = s.dt ∧ t.st = s.st
  status : (t.status = s.status ∧ ∀ x, i ≠ .ldVxK x) ∨
    ∃ x, i = .ldVxK x ∧ (t.status = .running ∨ t.status = .awaitKey ∧ t = s.setStatus .awaitKey)
  mem : t.mem = s.mem ∨
    ∃ bs : List Byte, 0 < bs.length ∧ writeTrap s.cfg s.dataBase bs.length = none ∧
      t.mem = Memory.setBytes s.cfg s.mem s.dataBase bs

/-- The inversion of `exec`: a fault with the instruction's word, or a completion. -/
theorem exec_cases {i : Instr} {s t : State} (h : exec i s = .next t) :
    (∃ r, t = s.raise r (some (encode i))) ∨ Completed i s t := by
  cases i with
  | ret =>
    simp only [exec, execRet] at h
    split at h
    · rename_i v s' hp
      obtain ⟨-, -, -, e⟩ := State.pop_cases hp
      cases h
      right
      rw [e]
      constructor <;> simp
    · cases h
      exact .inl ⟨_, rfl⟩
  | call nnn =>
    simp only [exec, execCall] at h
    split at h
    · rename_i s' hp
      obtain ⟨-, -, -, -, e⟩ := State.push_cases hp
      cases h
      right
      rw [e]
      constructor <;> simp
    · cases h
      exact .inl ⟨_, rfl⟩
  | ldF x =>
    obtain ⟨r, -, e⟩ | ⟨-, e⟩ := guarded_cases h
    · exact .inl ⟨r, e⟩
    · cases e; right; constructor <;> simp
  | skp x =>
    obtain ⟨r, -, e⟩ | ⟨-, e⟩ := guarded_cases h
    · exact .inl ⟨r, e⟩
    · cases e; right; constructor <;> simp
  | sknp x =>
    obtain ⟨r, -, e⟩ | ⟨-, e⟩ := guarded_cases h
    · exact .inl ⟨r, e⟩
    · cases e; right; constructor <;> simp
  | drw x y n =>
    obtain ⟨r, -, e⟩ | ⟨-, e⟩ := guarded_cases h
    · exact .inl ⟨r, e⟩
    · cases e; right; constructor <;> simp
  | ldB x =>
    obtain ⟨r, -, e⟩ | ⟨hc, e⟩ := guarded_cases h
    · exact .inl ⟨r, e⟩
    · cases e
      right
      constructor <;> simp
      exact .inr ⟨bcdDigits (s.getV x), by simp [bcdDigits], hc, rfl⟩
  | stRegs x =>
    obtain ⟨r, -, e⟩ | ⟨hc, e⟩ := guarded_cases h
    · exact .inl ⟨r, e⟩
    · cases e
      right
      rw [State.postIncrement_eq]
      constructor <;> simp
      exact .inr ⟨s.lowRegs x, by simp, by rw [lowRegs_length]; exact hc, rfl⟩
  | ldRegs x =>
    obtain ⟨r, -, e⟩ | ⟨-, e⟩ := guarded_cases h
    · exact .inl ⟨r, e⟩
    · cases e
      right
      rw [State.postIncrement_eq]
      constructor <;> simp
  | ldVxK x =>
    simp only [exec, execLdVxK] at h
    split at h
    · cases h; right; constructor <;> simp
    · cases h; right; constructor <;> simp
  | _ => cases h; right; constructor <;> simp

/-- No instruction refuses, and none answers a model fault. -/
theorem exec_next (i : Instr) (s : State) : ∃ t, exec i s = .next t := by
  cases i <;>
    simp only [exec, execCls, execRet, execJp, execCall, execSeByte, execSneByte, execSeReg, execLdByte, execAddByte,
      execLdReg, execOrReg, execAndReg, execXorReg, execAddReg, execSubReg, execShrReg, execSubnReg, execShlReg,
      execSneReg, execLdI, execJpV0, execRnd, execDrw, execSkp, execSknp, execLdVxDT, execLdVxK, execLdDTVx,
      execLdSTVx, execAddI, execLdF, execLdB, execStRegs, execLdRegs, guarded] <;>
    first
      | exact ⟨_, rfl⟩
      | (split <;> exact ⟨_, rfl⟩)

end Sys2Proof.Machine
end

