-- ==== Sys2Proof/Laws/PerInstr.lean ====
section
/-! SUPPORT. The family FixedBits, one lemma per instruction: its word has the fixed bits its row of spec/opcode_table.json
gives (columns match and mask). -/

namespace Sys2Proof.Laws.FixedBits

/-- The word of an instruction under its row's mask is its row's match. -/
def Statement (i : Instr) : Prop := encode i &&& i.row.2 = i.row.1

theorem cls : Statement .cls := by unfold Statement; decide

theorem ret : Statement .ret := by unfold Statement; decide

theorem jp (nnn : Addr12) : Statement (.jp nnn) := by
  show formatNNN 0x1#4 nnn &&& 0xF000#16 = _
  rw [and_F000, fieldOp_formatNNN]
  rfl

theorem call (nnn : Addr12) : Statement (.call nnn) := by
  show formatNNN 0x2#4 nnn &&& 0xF000#16 = _
  rw [and_F000, fieldOp_formatNNN]
  rfl

theorem seByte (x : Reg) (kk : Byte) : Statement (.seByte x kk) := by
  show formatXKK 0x3#4 x kk &&& 0xF000#16 = _
  rw [and_F000, fieldOp_formatXKK]
  rfl

theorem sneByte (x : Reg) (kk : Byte) : Statement (.sneByte x kk) := by
  show formatXKK 0x4#4 x kk &&& 0xF000#16 = _
  rw [and_F000, fieldOp_formatXKK]
  rfl

theorem seReg (x : Reg) (y : Reg) : Statement (.seReg x y) := by
  show formatXYN 0x5#4 x y 0x0#4 &&& 0xF00F#16 = _
  rw [and_F00F, fieldOp_formatXYN, fieldN_formatXYN]
  rfl

theorem ldByte (x : Reg) (kk : Byte) : Statement (.ldByte x kk) := by
  show formatXKK 0x6#4 x kk &&& 0xF000#16 = _
  rw [and_F000, fieldOp_formatXKK]
  rfl

theorem addByte (x : Reg) (kk : Byte) : Statement (.addByte x kk) := by
  show formatXKK 0x7#4 x kk &&& 0xF000#16 = _
  rw [and_F000, fieldOp_formatXKK]
  rfl

theorem ldReg (x : Reg) (y : Reg) : Statement (.ldReg x y) := by
  show formatXYN 0x8#4 x y 0x0#4 &&& 0xF00F#16 = _
  rw [and_F00F, fieldOp_formatXYN, fieldN_formatXYN]
  rfl

theorem orReg (x : Reg) (y : Reg) : Statement (.orReg x y) := by
  show formatXYN 0x8#4 x y 0x1#4 &&& 0xF00F#16 = _
  rw [and_F00F, fieldOp_formatXYN, fieldN_formatXYN]
  rfl

theorem andReg (x : Reg) (y : Reg) : Statement (.andReg x y) := by
  show formatXYN 0x8#4 x y 0x2#4 &&& 0xF00F#16 = _
  rw [and_F00F, fieldOp_formatXYN, fieldN_formatXYN]
  rfl

theorem xorReg (x : Reg) (y : Reg) : Statement (.xorReg x y) := by
  show formatXYN 0x8#4 x y 0x3#4 &&& 0xF00F#16 = _
  rw [and_F00F, fieldOp_formatXYN, fieldN_formatXYN]
  rfl

theorem addReg (x : Reg) (y : Reg) : Statement (.addReg x y) := by
  show formatXYN 0x8#4 x y 0x4#4 &&& 0xF00F#16 = _
  rw [and_F00F, fieldOp_formatXYN, fieldN_formatXYN]
  rfl

theorem subReg (x : Reg) (y : Reg) : Statement (.subReg x y) := by
  show formatXYN 0x8#4 x y 0x5#4 &&& 0xF00F#16 = _
  rw [and_F00F, fieldOp_formatXYN, fieldN_formatXYN]
  rfl

theorem shrReg (x : Reg) (y : Reg) : Statement (.shrReg x y) := by
  show formatXYN 0x8#4 x y 0x6#4 &&& 0xF00F#16 = _
  rw [and_F00F, fieldOp_formatXYN, fieldN_formatXYN]
  rfl

theorem subnReg (x : Reg) (y : Reg) : Statement (.subnReg x y) := by
  show formatXYN 0x8#4 x y 0x7#4 &&& 0xF00F#16 = _
  rw [and_F00F, fieldOp_formatXYN, fieldN_formatXYN]
  rfl

theorem shlReg (x : Reg) (y : Reg) : Statement (.shlReg x y) := by
  show formatXYN 0x8#4 x y 0xE#4 &&& 0xF00F#16 = _
  rw [and_F00F, fieldOp_formatXYN, fieldN_formatXYN]
  rfl

theorem sneReg (x : Reg) (y : Reg) : Statement (.sneReg x y) := by
  show formatXYN 0x9#4 x y 0x0#4 &&& 0xF00F#16 = _
  rw [and_F00F, fieldOp_formatXYN, fieldN_formatXYN]
  rfl

theorem ldI (nnn : Addr12) : Statement (.ldI nnn) := by
  show formatNNN 0xA#4 nnn &&& 0xF000#16 = _
  rw [and_F000, fieldOp_formatNNN]
  rfl

theorem jpV0 (nnn : Addr12) : Statement (.jpV0 nnn) := by
  show formatNNN 0xB#4 nnn &&& 0xF000#16 = _
  rw [and_F000, fieldOp_formatNNN]
  rfl

theorem rnd (x : Reg) (kk : Byte) : Statement (.rnd x kk) := by
  show formatXKK 0xC#4 x kk &&& 0xF000#16 = _
  rw [and_F000, fieldOp_formatXKK]
  rfl

theorem drw (x : Reg) (y : Reg) (n : Nibble) : Statement (.drw x y n) := by
  show formatXYN 0xD#4 x y n &&& 0xF000#16 = _
  rw [and_F000, fieldOp_formatXYN]
  rfl

theorem skp (x : Reg) : Statement (.skp x) := by
  show formatXKK 0xE#4 x 0x9E#8 &&& 0xF0FF#16 = _
  rw [and_F0FF, fieldOp_formatXKK, fieldKK_formatXKK]
  rfl

theorem sknp (x : Reg) : Statement (.sknp x) := by
  show formatXKK 0xE#4 x 0xA1#8 &&& 0xF0FF#16 = _
  rw [and_F0FF, fieldOp_formatXKK, fieldKK_formatXKK]
  rfl

theorem ldVxDT (x : Reg) : Statement (.ldVxDT x) := by
  show formatXKK 0xF#4 x 0x07#8 &&& 0xF0FF#16 = _
  rw [and_F0FF, fieldOp_formatXKK, fieldKK_formatXKK]
  rfl

theorem ldVxK (x : Reg) : Statement (.ldVxK x) := by
  show formatXKK 0xF#4 x 0x0A#8 &&& 0xF0FF#16 = _
  rw [and_F0FF, fieldOp_formatXKK, fieldKK_formatXKK]
  rfl

theorem ldDTVx (x : Reg) : Statement (.ldDTVx x) := by
  show formatXKK 0xF#4 x 0x15#8 &&& 0xF0FF#16 = _
  rw [and_F0FF, fieldOp_formatXKK, fieldKK_formatXKK]
  rfl

theorem ldSTVx (x : Reg) : Statement (.ldSTVx x) := by
  show formatXKK 0xF#4 x 0x18#8 &&& 0xF0FF#16 = _
  rw [and_F0FF, fieldOp_formatXKK, fieldKK_formatXKK]
  rfl

theorem addI (x : Reg) : Statement (.addI x) := by
  show formatXKK 0xF#4 x 0x1E#8 &&& 0xF0FF#16 = _
  rw [and_F0FF, fieldOp_formatXKK, fieldKK_formatXKK]
  rfl

theorem ldF (x : Reg) : Statement (.ldF x) := by
  show formatXKK 0xF#4 x 0x29#8 &&& 0xF0FF#16 = _
  rw [and_F0FF, fieldOp_formatXKK, fieldKK_formatXKK]
  rfl

theorem ldB (x : Reg) : Statement (.ldB x) := by
  show formatXKK 0xF#4 x 0x33#8 &&& 0xF0FF#16 = _
  rw [and_F0FF, fieldOp_formatXKK, fieldKK_formatXKK]
  rfl

theorem stRegs (x : Reg) : Statement (.stRegs x) := by
  show formatXKK 0xF#4 x 0x55#8 &&& 0xF0FF#16 = _
  rw [and_F0FF, fieldOp_formatXKK, fieldKK_formatXKK]
  rfl

theorem ldRegs (x : Reg) : Statement (.ldRegs x) := by
  show formatXKK 0xF#4 x 0x65#8 &&& 0xF0FF#16 = _
  rw [and_F0FF, fieldOp_formatXKK, fieldKK_formatXKK]
  rfl

end Sys2Proof.Laws.FixedBits
end

