-- ==== Sys2Proof/Laws/Step.lean ====
section
/-! SUPPORT. What one event can do, said once. -/

namespace Sys2Proof.Machine

/-- The inversion of an instruction step. -/
theorem cpuStep_cases {s t : State} (h : cpuStep s = .next t) :
    s.status ≠ .halted ∧
      ((∃ r, s.fetchTrap = some r ∧ t = s.raise r none) ∨
        (s.fetchTrap = none ∧ decode? s.fetchWord = none ∧
          t = s.raise ⟨.unknownOpcode, .absent⟩ (some s.fetchWord)) ∨
        (s.fetchTrap = none ∧ ∃ i, decode? s.fetchWord = some i ∧ exec i s = .next t)) := by
  unfold cpuStep at h
  split at h
  · cases h
  · rename_i live
    refine ⟨live, ?_⟩
    split at h
    · rename_i r hr
      cases h
      exact .inl ⟨r, hr, rfl⟩
    · rename_i hn
      unfold decodeWord at h
      cases hd : decode? s.fetchWord with
      | none =>
        rw [hd] at h
        cases h
        exact .inr (.inl ⟨hn, rfl, rfl⟩)
      | some i =>
        rw [hd] at h
        exact .inr (.inr ⟨hn, i, rfl, h⟩)

/-- An instruction step stops exactly in HALTED, and is never refused. -/
theorem cpuStep_answers (s : State) :
    (s.status = .halted ∧ cpuStep s = .fault .halted) ∨ (s.status ≠ .halted ∧ ∃ t, cpuStep s = .next t) := by
  unfold cpuStep
  split
  · rename_i h; exact .inl ⟨h, rfl⟩
  · rename_i h
    refine .inr ⟨h, ?_⟩
    split
    · exact ⟨_, rfl⟩
    · split
      · exact ⟨_, rfl⟩
      · exact exec_next _ _

/-- A step is the next event's effect on the state without it. -/
theorem step_eq (s : State) : step s = react s.nextEvent s.popEvent := rfl

/-- The fetch trap in closed form. -/
theorem fetchTrap_eq (s : State) :
    s.fetchTrap =
      if 0x1000 < s.pc.toNat + 2 then some ⟨.memoryOutOfRange, .addr (firstBeyond s.pc.toNat)⟩ else none := by
  rw [State.fetchTrap, readTrap_eq]
  simp

/-- What PC addresses is the memory's and PC's alone. -/
theorem instrAtPc_congr {s t : State} (hpc : t.pc = s.pc) (hmem : t.mem = s.mem) (hcfg : t.cfg = s.cfg) :
    t.fetchTrap = s.fetchTrap ∧ t.fetchWord = s.fetchWord ∧ t.instrAtPc = s.instrAtPc := by
  have trap : t.fetchTrap = s.fetchTrap := by rw [State.fetchTrap, State.fetchTrap, hpc]
  have word : t.fetchWord = s.fetchWord := by
    simp only [State.fetchWord, State.readByte, hpc, hmem, hcfg]
  exact ⟨trap, word, by rw [State.instrAtPc, State.instrAtPc, trap, word]⟩

/-- A host event leaves everything but its own fields. -/
theorem tick_cases (s : State) : s.tick = { s with dt := s.tick.dt, st := s.tick.st } := by
  unfold State.tick; split <;> rfl

theorem keyUpdate_cases (s : State) (new : Word) :
    s.keyUpdate new = { s with keys := (s.keyUpdate new).keys, keysPrev := (s.keyUpdate new).keysPrev } := by
  unfold State.keyUpdate; split <;> rfl

theorem presentAck_cases (s : State) : s.presentAck = { s with drawFlag := s.presentAck.drawFlag } := by
  unfold State.presentAck; split <;> rfl

end Sys2Proof.Machine
end

