-- ==== Sys2Proof/Tests/Slice0.lean ====
section
/-! SUPPORT. The model's own tests. Every expected value is from outside the model: spec/95_test_vectors.md, whose row is
named in each comment, or the rule named there. Then a state and operands meeting each statement's hypotheses. -/

namespace Sys2Proof.Tests

open Sys2Proof.Machine

/-! ### Helpers -/

/-- The reset state with some registers set. -/
def regs (l : List (Reg × Byte)) : State := l.foldl (fun s p => s.setV p.1 p.2) State.reset

/-- With the two-byte word at PC, one step answers a next state that p accepts. -/
def steps (s : State) (w : Nat) (p : State → Bool) : Bool :=
  match step (s.withFetchWord 16 w) with
  | .next t => p t
  | .fault _ => false
  | .refused _ => false

/-- A register and VF. -/
def resultIs (x : Reg) (b flag : Byte) (t : State) : Bool := t.getV x == b && t.getV VF == flag

/-- The pixels that are on, as (row, column), in order. -/
def onPixels (t : State) : List (Nat × Nat) :=
  t.disp.toList.zipIdx.flatMap fun row => (row.1.toList.zipIdx.filter (·.1)).map fun pixel => (row.2, pixel.2)

/-- A configuration with another shift mode, increment rule, write policy or font place. -/
def cfgVy : Config := { defaultConfig with shiftMode := .vySource }
def cfgInc : Config := { defaultConfig with loadStoreIncrementsI := true }
def cfgLow : Config := { defaultConfig with lowWritePolicy := .write }
def cfgHighFont : Config := { defaultConfig with fontBase := 0x1B0 }
def cfgBadFont : Config := { defaultConfig with fontBase := 0x1B1 }

/-- The default launch of a program. -/
def launchOf (cfg : Config) (program : List Byte) : Launch :=
  { cfg := cfg, resetV := defaultResetV, resetI := 0x0000#16, resetStack := defaultResetStack, program := program }

/-! ### WellFormed: each check, with a term it accepts and one it refuses (R42, R137) -/

theorem test_font_at_the_top_fits : cfgHighFont.wellFormed := by decide
theorem test_font_past_the_top_is_ill_formed : ¬cfgBadFont.wellFormed := by decide
theorem test_font_past_the_top_is_refused :
    boot (launchOf cfgBadFont []) = .error (.fontDoesNotFit 0x1B1) := by rfl
/-- A program of n zero bytes. -/
def zeros (n : Nat) : Launch := launchOf defaultConfig (List.replicate n 0x00#8)
theorem zeros_length (n : Nat) : (zeros n).program.length = n := List.length_replicate
theorem test_longest_program_fits : (zeros 3584).programFits := Nat.le_of_eq (zeros_length 3584)
theorem test_longer_program_is_ill_formed : ¬(zeros 3585).wellFormed := fun h => by
  have := h.2
  rw [Launch.programFits, zeros_length] at this
  exact absurd this (by decide)
/-- 95 R4. -/
theorem test_longer_program_is_refused : boot (zeros 3585) = .error (.loadError 3585) := by
  have long : ¬(zeros 3585).programFits := fun h => by
    rw [Launch.programFits, zeros_length] at h
    exact absurd h (by decide)
  unfold boot
  rw [if_neg (show ¬¬(zeros 3585).cfg.wellFormed by decide), if_pos long, zeros_length]
theorem test_instruction_is_well_formed : (Instr.seReg 0xA#4 0xA#4).wellFormed := trivial

/-! ### Decode (95, 2.1): one word for every instruction, and the words that are none -/

theorem test_decode_cls : decodeWord 0x00E0#16 = .ok .cls := by decide
theorem test_decode_ret : decodeWord 0x00EE#16 = .ok .ret := by decide
theorem test_decode_jp : decodeWord 0x1ABC#16 = .ok (.jp 0xABC#12) := by decide
theorem test_decode_call : decodeWord 0x2ABC#16 = .ok (.call 0xABC#12) := by decide
theorem test_decode_seByte : decodeWord 0x3A5C#16 = .ok (.seByte 0xA#4 0x5C#8) := by decide
theorem test_decode_sneByte : decodeWord 0x4A5C#16 = .ok (.sneByte 0xA#4 0x5C#8) := by decide
theorem test_decode_seReg : decodeWord 0x5AB0#16 = .ok (.seReg 0xA#4 0xB#4) := by decide
theorem test_decode_ldByte : decodeWord 0x6A5C#16 = .ok (.ldByte 0xA#4 0x5C#8) := by decide
theorem test_decode_addByte : decodeWord 0x7A5C#16 = .ok (.addByte 0xA#4 0x5C#8) := by decide
theorem test_decode_ldReg : decodeWord 0x8AB0#16 = .ok (.ldReg 0xA#4 0xB#4) := by decide
theorem test_decode_orReg : decodeWord 0x8AB1#16 = .ok (.orReg 0xA#4 0xB#4) := by decide
theorem test_decode_andReg : decodeWord 0x8AB2#16 = .ok (.andReg 0xA#4 0xB#4) := by decide
theorem test_decode_xorReg : decodeWord 0x8AB3#16 = .ok (.xorReg 0xA#4 0xB#4) := by decide
theorem test_decode_addReg : decodeWord 0x8AB4#16 = .ok (.addReg 0xA#4 0xB#4) := by decide
theorem test_decode_subReg : decodeWord 0x8AB5#16 = .ok (.subReg 0xA#4 0xB#4) := by decide
theorem test_decode_shrReg : decodeWord 0x8AB6#16 = .ok (.shrReg 0xA#4 0xB#4) := by decide
theorem test_decode_subnReg : decodeWord 0x8AB7#16 = .ok (.subnReg 0xA#4 0xB#4) := by decide
theorem test_decode_shlReg : decodeWord 0x8ABE#16 = .ok (.shlReg 0xA#4 0xB#4) := by decide
theorem test_decode_sneReg : decodeWord 0x9AB0#16 = .ok (.sneReg 0xA#4 0xB#4) := by decide
theorem test_decode_ldI : decodeWord 0xAABC#16 = .ok (.ldI 0xABC#12) := by decide
theorem test_decode_jpV0 : decodeWord 0xBABC#16 = .ok (.jpV0 0xABC#12) := by decide
theorem test_decode_rnd : decodeWord 0xCA5C#16 = .ok (.rnd 0xA#4 0x5C#8) := by decide
theorem test_decode_drw : decodeWord 0xDAB5#16 = .ok (.drw 0xA#4 0xB#4 0x5#4) := by decide
theorem test_decode_skp : decodeWord 0xEA9E#16 = .ok (.skp 0xA#4) := by decide
theorem test_decode_sknp : decodeWord 0xEAA1#16 = .ok (.sknp 0xA#4) := by decide
theorem test_decode_ldVxDT : decodeWord 0xFA07#16 = .ok (.ldVxDT 0xA#4) := by decide
theorem test_decode_ldVxK : decodeWord 0xFA0A#16 = .ok (.ldVxK 0xA#4) := by decide
theorem test_decode_ldDTVx : decodeWord 0xFA15#16 = .ok (.ldDTVx 0xA#4) := by decide
theorem test_decode_ldSTVx : decodeWord 0xFA18#16 = .ok (.ldSTVx 0xA#4) := by decide
theorem test_decode_addI : decodeWord 0xFA1E#16 = .ok (.addI 0xA#4) := by decide
theorem test_decode_ldF : decodeWord 0xFA29#16 = .ok (.ldF 0xA#4) := by decide
theorem test_decode_ldB : decodeWord 0xFA33#16 = .ok (.ldB 0xA#4) := by decide
theorem test_decode_stRegs : decodeWord 0xFA55#16 = .ok (.stRegs 0xA#4) := by decide
theorem test_decode_ldRegs : decodeWord 0xFA65#16 = .ok (.ldRegs 0xA#4) := by decide
theorem test_decode_legal_corners :
    decodeWord 0x5AA0#16 = .ok (.seReg 0xA#4 0xA#4) ∧ decodeWord 0xD000#16 = .ok (.drw 0x0#4 0x0#4 0x0#4) ∧
      decodeWord 0xFF65#16 = .ok (.ldRegs 0xF#4) := by decide
theorem test_decode_unknown :
    ([0x0000#16, 0x0123#16, 0x00E1#16, 0x00FF#16, 0x00C1#16, 0x5121#16, 0x8008#16, 0x8009#16, 0x800A#16, 0x800B#16,
      0x800C#16, 0x800D#16].map decodeWord).all (fun r => r.toOption.isNone) = true := by decide
theorem test_decode_unknown_more :
    ([0x800F#16, 0x9AB1#16, 0xE000#16, 0xE09F#16, 0xE0A2#16, 0xF000#16, 0xF030#16, 0xF075#16, 0xF008#16, 0xF019#16,
      0xF066#16, 0xFFFF#16].map decodeWord).all (fun r => r.toOption.isNone) = true := by decide
theorem test_decode_bytes_high_first :
    decodeBytes [0x2A#8, 0xBC#8, 0x77#8] = .ok (.call 0xABC#12, [0x77#8]) := by decide
theorem test_decode_one_byte : decodeBytes [0x2A#8] = .error .truncated := by decide
theorem test_decode_table_word :
    decodeTableWord 16 0x2ABC = some (.call 0xABC#12) ∧ decodeTableWord 16 0x0123 = none := by decide

/-! ### Control flow (95, 2.2) -/

/-- CF1. -/
theorem test_jp : steps State.reset 0x1234 (fun t => t.pc == 0x234#16) = true := by decide
/-- CF3. -/
theorem test_call : steps { State.reset with pc := 0x204#16 } 0x2ABC
    (fun t => t.pc == 0xABC#16 && t.sp == 1 && t.stack[0] == 0x206#16) = true := by decide
/-- CF4. -/
theorem test_call_overflow : exec (.call 0x400#12) { State.reset with pc := 0x300#16, sp := 16 } =
      .next (faulted { State.reset with pc := 0x300#16, sp := 16 } .stackOverflow (some 0x2400#16) .absent) := by
  rfl
/-- CF5. -/
theorem test_ret : steps { State.reset with pc := 0xABC#16, sp := 1, stack := State.reset.stack.set 0 0x206#16 } 0x00EE
    (fun t => t.pc == 0x206#16 && t.sp == 0) = true := by decide
/-- CF6. -/
theorem test_ret_underflow : exec .ret { State.reset with pc := 0x206#16 } =
      .next (faulted { State.reset with pc := 0x206#16 } .stackUnderflow (some 0x00EE#16) .absent) := by rfl
/-- CF7. -/
theorem test_jpV0 : steps (regs [(0x0#4, 0x10#8)]) 0xB300 (fun t => t.pc == 0x310#16) = true := by decide
/-- CF8: not masked to 12 bits. -/
theorem test_jpV0_above : steps (regs [(0x0#4, 0xFF#8)]) 0xBFFF (fun t => t.pc == 0x10FE#16) = true := by decide
/-- CF9, CF10. -/
theorem test_seByte : steps (regs [(0x5#4, 0x2A#8)]) 0x352A (fun t => t.pc == 0x204#16) = true ∧
    steps (regs [(0x5#4, 0x2A#8)]) 0x352B (fun t => t.pc == 0x202#16) = true := by decide
/-- CF11, CF12. -/
theorem test_sneByte : steps (regs [(0x5#4, 0x2A#8)]) 0x452A (fun t => t.pc == 0x202#16) = true ∧
    steps (regs [(0x5#4, 0x2A#8)]) 0x4500 (fun t => t.pc == 0x204#16) = true := by decide
/-- CF13, CF14. -/
theorem test_seReg : steps (regs [(0x1#4, 0x07#8), (0x2#4, 0x07#8)]) 0x5120 (fun t => t.pc == 0x204#16) = true ∧
    steps (regs [(0x1#4, 0x07#8), (0x2#4, 0x08#8)]) 0x5120 (fun t => t.pc == 0x202#16) = true := by decide
/-- CF16, CF17. -/
theorem test_sneReg : steps (regs [(0x1#4, 0x07#8), (0x2#4, 0x08#8)]) 0x9120 (fun t => t.pc == 0x204#16) = true ∧
    steps State.reset 0x9330 (fun t => t.pc == 0x202#16) = true := by decide
/-- CF18: a fetch at 0xFFE. -/
theorem test_fetch_at_the_top : steps { State.reset with pc := 0xFFE#16 } 0x1200 (fun t => t.pc == 0x200#16) = true := by
  decide
/-- CF21: an odd PC. -/
theorem test_odd_pc : steps { State.reset with pc := 0x201#16 } 0x00E0 (fun t => t.pc == 0x203#16) = true := by decide
/-- R2: memory after reset is zero, and 0x0000 is unknown. -/
theorem test_empty_program :
    step State.reset = .next (faulted State.reset .unknownOpcode (some 0x0000#16) .absent) := by rfl
/-- CF19. -/
theorem test_fetch_beyond :
    step { State.reset with pc := 0xFFF#16 } =
      .next (faulted { State.reset with pc := 0xFFF#16 } .memoryOutOfRange none (.addr 0x1000)) := by rfl

/-! ### The ALU (95, 2.3) -/

/-- A1. -/
theorem test_ldByte : steps State.reset 0x63AB (fun t => t.getV 0x3#4 == 0xAB#8) = true := by decide
/-- A3, A5. -/
theorem test_addByte : steps (regs [(0x0#4, 0xFF#8)]) 0x7001 (resultIs 0x0#4 0x00#8 0x00#8) = true ∧
    steps (regs [(0xF#4, 0xFF#8)]) 0x7F01 (resultIs 0xF#4 0x00#8 0x00#8) = true := by decide
/-- A6. -/
theorem test_ldReg : steps (regs [(0x0#4, 0x12#8), (0x1#4, 0x34#8)]) 0x8010 (resultIs 0x0#4 0x34#8 0x00#8) = true := by
  decide
/-- A7. -/
theorem test_orReg : steps (regs [(0x0#4, 0x0F#8), (0x1#4, 0xF0#8), (0xF#4, 0x55#8)]) 0x8011
    (resultIs 0x0#4 0xFF#8 0x55#8) = true := by decide
/-- A8. -/
theorem test_andReg : steps (regs [(0x0#4, 0x3C#8), (0x1#4, 0x0F#8), (0xF#4, 0x55#8)]) 0x8012
    (resultIs 0x0#4 0x0C#8 0x55#8) = true := by decide
/-- A9. -/
theorem test_xorReg : steps (regs [(0x0#4, 0x3C#8), (0x1#4, 0x0F#8), (0xF#4, 0x55#8)]) 0x8013
    (resultIs 0x0#4 0x33#8 0x55#8) = true := by decide
/-- A12, A13. -/
theorem test_addReg : steps (regs [(0x0#4, 0x7F#8), (0x1#4, 0x01#8)]) 0x8014 (resultIs 0x0#4 0x80#8 0x00#8) = true ∧
    steps (regs [(0x0#4, 0xFF#8), (0x1#4, 0x01#8)]) 0x8014 (resultIs 0x0#4 0x00#8 0x01#8) = true := by decide
/-- A16, A18: VF as destination, and as operand. -/
theorem test_addReg_flag : steps (regs [(0xF#4, 0xFF#8), (0x1#4, 0x01#8)]) 0x8F14 (resultIs 0xF#4 0x01#8 0x01#8) = true ∧
    steps (regs [(0x0#4, 0x01#8), (0xF#4, 0xFF#8)]) 0x80F4 (resultIs 0x0#4 0x00#8 0x01#8) = true := by decide
/-- A20, A21. -/
theorem test_subReg : steps (regs [(0x0#4, 0x10#8), (0x1#4, 0x20#8)]) 0x8015 (resultIs 0x0#4 0xF0#8 0x00#8) = true ∧
    steps (regs [(0x0#4, 0x10#8), (0x1#4, 0x10#8)]) 0x8015 (resultIs 0x0#4 0x00#8 0x01#8) = true := by decide
/-- A25: VF as destination. -/
theorem test_subReg_flag : steps (regs [(0xF#4, 0x05#8), (0x1#4, 0x03#8)]) 0x8F15 (resultIs 0xF#4 0x01#8 0x01#8) = true := by
  decide
/-- A26, A27. -/
theorem test_subnReg : steps (regs [(0x0#4, 0x10#8), (0x1#4, 0x20#8)]) 0x8017 (resultIs 0x0#4 0x10#8 0x01#8) = true ∧
    steps (regs [(0x0#4, 0x20#8), (0x1#4, 0x10#8)]) 0x8017 (resultIs 0x0#4 0xF0#8 0x00#8) = true := by decide
/-- A33, A36. -/
theorem test_shrReg : steps (regs [(0x0#4, 0xFF#8)]) 0x8016 (resultIs 0x0#4 0x7F#8 0x01#8) = true ∧
    steps (regs [(0xF#4, 0x03#8)]) 0x8F06 (resultIs 0xF#4 0x01#8 0x01#8) = true := by decide
/-- A34, A35. -/
theorem test_shrReg_modes : steps (regs [(0x0#4, 0x02#8), (0x1#4, 0xFF#8)]) 0x8016 (resultIs 0x0#4 0x01#8 0x00#8) = true ∧
    steps { regs [(0x0#4, 0x02#8), (0x1#4, 0xFF#8)] with cfg := cfgVy } 0x8016 (resultIs 0x0#4 0x7F#8 0x01#8) = true := by
  decide
/-- A37, A38. -/
theorem test_shlReg : steps (regs [(0x0#4, 0x81#8)]) 0x800E (resultIs 0x0#4 0x02#8 0x01#8) = true ∧
    steps (regs [(0x0#4, 0x40#8)]) 0x800E (resultIs 0x0#4 0x80#8 0x00#8) = true := by decide
/-- A41. -/
theorem test_shlReg_vy : steps { regs [(0x0#4, 0x01#8), (0x1#4, 0x80#8)] with cfg := cfgVy } 0x801E
    (resultIs 0x0#4 0x00#8 0x01#8) = true := by decide
/-- A44, and R94: whatever the random byte, the bits outside the mask are 0. -/
theorem test_rnd : ∃ t, exec (.rnd 0x3#4 0x00#8) State.reset = .next t ∧ t.getV 0x3#4 = 0x00#8 ∧ t.draws = 1 :=
  ⟨_, rfl, BitVec.and_zero, rfl⟩

/-! ### The index register, loads and stores (95, 2.4) -/

/-- M1. -/
theorem test_ldI : steps State.reset 0xA2F0 (fun t => t.i == 0x02F0#16) = true := by decide
/-- M3, M4. -/
theorem test_addI : steps { regs [(0x2#4, 0x01#8)] with i := 0xFFFF#16 } 0xF21E
      (fun t => t.i == 0x0000#16 && t.getV VF == 0x00#8) = true ∧
    steps { regs [(0x2#4, 0x01#8)] with i := 0x0FFF#16 } 0xF21E (fun t => t.i == 0x1000#16) = true := by decide
/-- M6, M7. -/
theorem test_ldF : steps (regs [(0x4#4, 0x0A#8)]) 0xF429 (fun t => t.i == 0x0082#16) = true ∧
    steps (regs [(0x4#4, 0x0F#8)]) 0xF429 (fun t => t.i == 0x009B#16) = true := by decide
/-- M8. -/
theorem test_ldF_above : exec (.ldF 0x4#4) { regs [(0x4#4, 0x10#8)] with pc := 0x220#16 } =
      .next (faulted { regs [(0x4#4, 0x10#8)] with pc := 0x220#16 } .operandOutOfRange (some 0xF429#16) (.value 0x10#8)) := by rfl
/-- M9 (255), M10. -/
theorem test_ldB : steps { regs [(0x0#4, 255#8)] with i := 0x300#16 } 0xF033
      (fun t => t.readBytes 0x300 3 == [0x02#8, 0x05#8, 0x05#8]) = true ∧
    steps { regs [(0x0#4, 123#8)] with i := 0xFFD#16 } 0xF033
      (fun t => t.readBytes 0xFFD 3 == [0x01#8, 0x02#8, 0x03#8]) = true := by decide
/-- M11, M12, M13. -/
theorem test_ldB_checks : exec (.ldB 0x0#4) { regs [(0x0#4, 123#8)] with i := 0xFFE#16, pc := 0x220#16 } =
      .next (faulted { regs [(0x0#4, 123#8)] with i := 0xFFE#16, pc := 0x220#16 } .memoryOutOfRange (some 0xF033#16) (.addr 0x1000)) ∧
    exec (.ldB 0x0#4) { regs [(0x0#4, 123#8)] with i := 0x1FF#16, pc := 0x220#16 } =
      .next (faulted { regs [(0x0#4, 123#8)] with i := 0x1FF#16, pc := 0x220#16 } .reservedWrite (some 0xF033#16) (.addr 0x1FF)) ∧
    steps { regs [(0x0#4, 123#8)] with i := 0x1FF#16, cfg := cfgLow } 0xF033
      (fun t => t.readBytes 0x1FF 3 == [0x01#8, 0x02#8, 0x03#8]) = true := ⟨by rfl, by rfl, by decide⟩
/-- M14, M15. -/
theorem test_stRegs : steps { regs [(0x0#4, 0x11#8), (0x1#4, 0x22#8), (0x2#4, 0x33#8)] with i := 0x400#16 } 0xF255
      (fun t => t.readBytes 0x400 4 == [0x11#8, 0x22#8, 0x33#8, 0x00#8] && t.i == 0x400#16) = true ∧
    steps { regs [(0x0#4, 0x11#8), (0x1#4, 0x22#8), (0x2#4, 0x33#8)] with i := 0x400#16, cfg := cfgInc } 0xF255
      (fun t => t.readBytes 0x400 4 == [0x11#8, 0x22#8, 0x33#8, 0x00#8] && t.i == 0x403#16) = true := by decide
/-- M17, M22. -/
theorem test_stRegs_faults : exec (.stRegs 0xF#4) { State.reset with i := 0xFF1#16, pc := 0x220#16 } =
      .next (faulted { State.reset with i := 0xFF1#16, pc := 0x220#16 } .memoryOutOfRange (some 0xFF55#16) (.addr 0x1000)) ∧
    exec (.stRegs 0x1#4) { State.reset with i := 0xFFFF#16, pc := 0x220#16 } =
      .next (faulted { State.reset with i := 0xFFFF#16, pc := 0x220#16 } .memoryOutOfRange (some 0xF155#16) (.addr 0xFFFF)) :=
  ⟨by rfl, by rfl⟩
/-- M18. -/
theorem test_ldRegs : steps { State.reset with i := 0x050#16 } 0xF465
    (fun t => t.v.toList.take 6 == [0xF0#8, 0x90#8, 0x90#8, 0x90#8, 0xF0#8, 0x00#8]) = true := by decide
/-- M21. -/
theorem test_ldRegs_fault : exec (.ldRegs 0x0#4) { State.reset with i := 0xFFFF#16, pc := 0x220#16 } =
      .next (faulted { State.reset with i := 0xFFFF#16, pc := 0x220#16 } .memoryOutOfRange (some 0xF065#16) (.addr 0xFFFF)) := by rfl
/-! ### The display (95, 2.5) -/

/-- DR1. -/
theorem test_cls : steps { State.reset with disp := Display.blank.flip 5 5 } 0x00E0
    (fun t => onPixels t == [] && t.drawFlag && t.getV VF == 0x00#8) = true := by decide
/-- DR3: the wrap of a row. -/
theorem test_drw_wraps : steps { regs [(0x0#4, 60#8)] with i := 0x300#16, mem := [(0x300, 0xFF#8)] } 0xD011
    (fun t => onPixels t == [(0, 0), (0, 1), (0, 2), (0, 3), (0, 60), (0, 61), (0, 62), (0, 63)] && t.drawFlag &&
      t.getV VF == 0x00#8) = true := by decide
/-- DR7: a collision. -/
theorem test_drw_collides : steps { State.reset with
      i := 0x300#16, mem := [(0x300, 0xC0#8)], disp := Display.blank.flip 0 1 } 0xD011
    (fun t => onPixels t == [(0, 0)] && t.getV VF == 0x01#8) = true := by decide

/-! ### Timers and keys (95, 2.6) -/

/-- TM1. -/
theorem test_ldVxDT : steps { State.reset with dt := 0x3C#8 } 0xF507 (fun t => t.getV 0x5#4 == 0x3C#8) = true := by decide
/-- TM2. -/
theorem test_ldDTVx : steps (regs [(0x5#4, 0x3C#8)]) 0xF515 (fun t => t.dt == 0x3C#8 && t.st == 0x00#8) = true := by decide
/-- TM3. -/
theorem test_ldSTVx : steps (regs [(0x2#4, 0x02#8)]) 0xF218 (fun t => t.st == 0x02#8 && t.tone && t.dt == 0x00#8) = true := by
  decide
/-- K1, K2. -/
theorem test_skp : steps { regs [(0x1#4, 5#8)] with pc := 0x220#16, keys := 0x0020#16 } 0xE19E
      (fun t => t.pc == 0x224#16) = true ∧
    steps { regs [(0x1#4, 5#8)] with pc := 0x220#16 } 0xE19E (fun t => t.pc == 0x222#16) = true := by decide
/-- K4. -/
theorem test_skp_above : exec (.skp 0x1#4) { regs [(0x1#4, 0x10#8)] with pc := 0x220#16 } =
      .next (faulted { regs [(0x1#4, 0x10#8)] with pc := 0x220#16 } .operandOutOfRange (some 0xE19E#16) (.value 0x10#8)) := by rfl
/-- K3, and R111: the skip when the key is not pressed. -/
theorem test_sknp : steps { regs [(0x1#4, 5#8)] with pc := 0x220#16, keys := 0x0020#16 } 0xE1A1
      (fun t => t.pc == 0x222#16) = true ∧
    steps { regs [(0x1#4, 5#8)] with pc := 0x220#16 } 0xE1A1 (fun t => t.pc == 0x224#16) = true := by decide
/-- K8: a held key is no edge. -/
theorem test_ldVxK_waits : steps { State.reset with pc := 0x230#16, keys := 0x0004#16, keysPrev := 0x0004#16 } 0xF30A
    (fun t => t.pc == 0x230#16 && decide (t.status = .awaitKey)) = true := by decide
/-- K9, its first step: the lowest edge, and only that one consumed. -/
theorem test_ldVxK_stores : steps { State.reset with keys := 0x0028#16, status := .awaitKey } 0xF30A
    (fun t => t.getV 0x3#4 == 0x03#8 && t.keysPrev == 0x0008#16 && t.pc == 0x202#16 &&
      decide (t.status = .running)) = true := by decide

/-! ### Events (95, 2.6), reset and the host's placing of a word -/

/-- TM4, TM6, TM7. -/
theorem test_tick : ({ State.reset with dt := 1#8 } : State).tick.dt = 0#8 ∧ State.reset.tick.dt = 0#8 ∧
    ({ State.reset with st := 1#8 } : State).tick.tone = false := by decide
/-- TM9. -/
theorem test_tick_halted : ({ State.reset with dt := 5#8, status := .halted } : State).tick.dt = 5#8 := by decide
/-- K10. -/
theorem test_key_update : ({ State.reset with keys := 0x0001#16 } : State).keyUpdate 0x0001#16 =
    { State.reset with keys := 0x0001#16, keysPrev := 0x0001#16 } := by decide
/-- R126. -/
theorem test_present_ack : ({ State.reset with drawFlag := true } : State).presentAck = State.reset := by decide
/-- R128, R13: the oldest pending event first; it leaves the list. -/
theorem test_event_order : step { State.reset with dt := 9#8, events := [.tick, .presentAck] } =
    .next { State.reset with dt := 8#8, events := [.presentAck] } := by rfl
/-- R1: a program of two bytes; the font below it. -/
theorem test_boot : (match boot (launchOf defaultConfig [0x12#8, 0x00#8]) with
    | .ok s => s.mem == [(0x200, 0x12#8)] && s.readByte 0x200 == 0x12#8 && s.readByte 0x201 == 0x00#8 &&
        s.readByte 0x04F == 0x00#8 && s.readByte 0x050 == 0xF0#8 && s.readByte 0x09F == 0x80#8 &&
        s.readByte 0x0A0 == 0x00#8
    | .error _ => false) = true := by decide
/-- The memory a write leaves is canonical: rewriting the reset content removes the entry (log entry 9). -/
theorem test_memory_canonical :
    Memory.set defaultConfig (Memory.set defaultConfig [] 0x300 0x11#8) 0x300 0x00#8 = [] ∧
      Memory.set defaultConfig [] 0x050 0xF0#8 = [] := by decide
/-- A word placed after reset: it is what the next step runs, and the other fields are as they were. -/
theorem test_withFetchWord : State.reset.withFetchWord 16 0x1234 =
      { State.reset with mem := [(0x200, 0x12#8), (0x201, 0x34#8)] } ∧
    (State.reset.withFetchWord 16 0x1234).instrAtPc = some (.jp 0x234#12) := by decide

/-! ### Witnesses: a state and operands that meet all the hypotheses of a statement (of each clause, at the ends of its
range). Where a hypothesis is `step s = .next t` or `exec i s = .next t`, t is the one the model answers. -/

/-- The state after reset with a word at PC. -/
def atWord (pc : Word) (w : Nat) : State := ({ State.reset with pc := pc } : State).withFetchWord 16 w

/-- The state after reset with another PC, SP, I or configuration. -/
def atPc (pc : Word) : State := { State.reset with pc := pc }
def atSp (n : Fin 17) : State := { State.reset with sp := n }
def atI (i : Word) (c : Config) : State := { State.reset with i := i, cfg := c }
def haltedState : State := { State.reset with status := .halted }

theorem witness_DecodeThenEncode : decodeWord 0xDAB5#16 = .ok (.drw 0xA#4 0xB#4 0x5#4) := by decide

/-- The two fetched bytes at the top of memory, after an event that is a step. -/
theorem witness_StepRuns : ∃ s : State, s.events = [.step, .tick] ∧
    s.status ≠ .halted ∧ s.nextEvent = .step ∧ s.pc.toNat + 1 ≤ 0xFFF ∧
      decodeWord (s.readByte s.pc.toNat ++ s.readByte (s.pc.toNat + 1)) = .ok (.drw 0xA#4 0xB#4 0x5#4) :=
  ⟨{ atWord 0xFFE#16 0xDAB5 with events := [.step, .tick] }, rfl, by decide, rfl, by decide, by decide⟩

/-- The lowest and the highest PC that has no two bytes. -/
theorem witness_FetchBeyond :
    ((atPc 0xFFF#16).status ≠ .halted ∧ (atPc 0xFFF#16).nextEvent = .step ∧ 0xFFF < (atPc 0xFFF#16).pc.toNat + 1) ∧
    ((atPc 0xFFFF#16).status ≠ .halted ∧ (atPc 0xFFFF#16).nextEvent = .step ∧ 0xFFF < (atPc 0xFFFF#16).pc.toNat + 1) := by
  decide

theorem witness_UnknownWord : ∃ s : State,
    s.status ≠ .halted ∧ s.nextEvent = .step ∧ s.pc.toNat + 1 ≤ 0xFFF ∧
      s.readByte s.pc.toNat ++ s.readByte (s.pc.toNat + 1) = 0x5AB1#16 ∧
      decodeWord 0x5AB1#16 = .error (.unknownOpcode 0x5AB1#16) :=
  ⟨atWord 0xFFE#16 0x5AB1, by decide, rfl, by decide, by decide, by decide⟩

theorem witness_HaltedIsTerminal : haltedState.status = .halted ∧ haltedState.nextEvent = .step ∧
    ({ haltedState with events := [.tick] } : State).nextEvent ≠ .step := ⟨rfl, rfl, by decide⟩

theorem witness_Return : State.reset.sp.val = 0 ∧ 0 < (atSp 1).sp.val ∧ 0 < (atSp 16).sp.val := by decide

theorem witness_JumpToItself : State.reset.pc.toNat = (0x200#12).toNat := by decide

theorem witness_Call : State.reset.sp.val < 16 ∧ (atSp 15).sp.val < 16 ∧ (atSp 16).sp.val = 16 := by decide

/-- Sixteen calls from an empty stack: the next one finds it full. -/
theorem witness_NestedCalls : State.reset.sp.val + (List.replicate 16 0x300#12).length ≤ 16 ∧
    (∃ t, execList ((List.replicate 16 0x300#12).map .call) State.reset = .next t ∧ t.sp.val = 16) ∧
    List.replicate 16 0x300#12 ≠ [] := ⟨by decide, ⟨_, rfl, by decide⟩, by decide⟩

/-- The clauses `x ≠ VF` of the ALU statements; their other case is x = F. -/
theorem witness_ResultInAnotherRegister : (0xE#4 : Reg) ≠ VF ∧ (0x0#4 : Reg) ≠ VF := by decide

/-- The clause of `SkipsComparingRegisters` on the words with another low digit. -/
theorem witness_OtherLowDigit : (0x1#4 : Nibble) ≠ 0x0#4 ∧ (0xF#4 : Nibble) ≠ 0x0#4 := by decide

/-- An instruction that writes I under its parameter, for `EachPieceOfStateHasItsWriters`. -/
theorem witness_Writers : ∃ t, exec (.ldRegs 0x0#4) (atI 0x300#16 cfgInc) = .next t ∧ t.i = 0x301#16 :=
  ⟨_, rfl, by decide⟩

theorem witness_Shifts :
    (State.reset.cfg.shiftMode = .vxOnly ∧ 0x00#8 = State.reset.getV 0x1#4) ∧
    ((atI 0x000#16 cfgVy).cfg.shiftMode = .vySource ∧ 0x00#8 = (atI 0x000#16 cfgVy).getV 0x2#4) := by decide

theorem witness_Glyph : (State.reset.cfg.fontBase ≤ 0x1B0 ∧ (State.reset.getV 0x3#4).toNat ≤ 0xF) ∧
    ∃ s : State, s.cfg.fontBase = 0x1B0 ∧ (s.getV 0x3#4).toNat = 0xF :=
  ⟨by decide, (atI 0x000#16 cfgHighFont).setV 0x3#4 0x0F#8, rfl, by decide⟩

theorem witness_OperandAboveF : 0xF < ((regs [(0x3#4, 0x10#8)]).getV 0x3#4).toNat := by decide

/-- The lowest place under either policy, and the highest. -/
theorem witness_StoreDecimal :
    ((atI 0x200#16 defaultConfig).dataBase + 2 ≤ 0xFFF ∧ 0x200 ≤ (atI 0x200#16 defaultConfig).dataBase) ∧
    ((atI 0xFFD#16 defaultConfig).dataBase + 2 ≤ 0xFFF ∧ 0x200 ≤ (atI 0xFFD#16 defaultConfig).dataBase) ∧
    ((atI 0x000#16 cfgLow).dataBase + 2 ≤ 0xFFF ∧ (atI 0x000#16 cfgLow).cfg.lowWritePolicy = .write) := by decide

theorem witness_StoreRegisters :
    ((atI 0x200#16 defaultConfig).dataBase + (0xF#4 : Reg).toNat ≤ 0xFFF ∧ 0x200 ≤ (atI 0x200#16 defaultConfig).dataBase) ∧
    ((atI 0xFF0#16 defaultConfig).dataBase + (0xF#4 : Reg).toNat ≤ 0xFFF ∧ 0x200 ≤ (atI 0xFF0#16 defaultConfig).dataBase) ∧
    ((atI 0xFFF#16 cfgInc).dataBase + (0x0#4 : Reg).toNat ≤ 0xFFF ∧ 0x200 ≤ (atI 0xFFF#16 cfgInc).dataBase) ∧
    ((atI 0x000#16 cfgLow).dataBase + (0xF#4 : Reg).toNat ≤ 0xFFF ∧
      (atI 0x000#16 cfgLow).cfg.lowWritePolicy = .write) := by decide

/-- The premise on the memory of the two statements above, in each of these states. -/
theorem witness_Canonical (i : Word) (c : Config) : Memory.wf (atI i c).cfg (atI i c).mem :=
  ⟨List.Pairwise.nil, fun _ h => nomatch h⟩

theorem witness_LoadRegisters :
    (atI 0x000#16 defaultConfig).dataBase + (0xF#4 : Reg).toNat ≤ 0xFFF ∧
    (atI 0xFF0#16 defaultConfig).dataBase + (0xF#4 : Reg).toNat ≤ 0xFFF ∧
    (atI 0xFFF#16 defaultConfig).dataBase + (0x0#4 : Reg).toNat ≤ 0xFFF := by decide

/-- The lowest failing I of each clause, the highest, and the reserved range's ends. -/
theorem witness_DataAccessFaults :
    (0xFFF < (atI 0xFFE#16 defaultConfig).dataBase + 2 ∧ 0xFFF < (atI 0xFFFF#16 defaultConfig).dataBase + 2) ∧
    0xFFF < (atI 0xFF1#16 defaultConfig).dataBase + (0xF#4 : Reg).toNat ∧
    (0 < (0x1#4 : Nibble).toNat ∧
      0xFFF < (atI 0x1000#16 defaultConfig).dataBase + ((0x1#4 : Nibble).toNat - 1)) ∧
    ((atI 0x000#16 defaultConfig).cfg.lowWritePolicy = .fault ∧ (atI 0x000#16 defaultConfig).dataBase < 0x200) ∧
    ((atI 0x1FF#16 defaultConfig).cfg.lowWritePolicy = .fault ∧ (atI 0x1FF#16 defaultConfig).dataBase < 0x200) := by
  decide

/-- No rows at an I beyond memory, one row at the last byte, fifteen at the top. -/
theorem witness_Draw : (0x0#4 : Nibble).toNat = 0 ∧
    (atI 0xFFF#16 defaultConfig).dataBase + ((0x1#4 : Nibble).toNat - 1) ≤ 0xFFF ∧
    (atI 0xFF1#16 defaultConfig).dataBase + ((0xF#4 : Nibble).toNat - 1) ≤ 0xFFF := by decide

/-- The font's glyph 0 drawn from (0, 0); the second draw with its coordinates in other registers. -/
theorem witness_DrawingTwice : ∃ s t s' : State,
    (0x5#4 : Nibble).toNat ≠ 0 ∧ s.dataBase + ((0x5#4 : Nibble).toNat - 1) ≤ 0xFFF ∧
      s'.dataBase + ((0x5#4 : Nibble).toNat - 1) ≤ 0xFFF ∧ exec (.drw 0x0#4 0x1#4 0x5#4) s = .next t ∧
      s'.disp = t.disp ∧ (s'.getV 0x2#4).toNat % 64 = (s.getV 0x0#4).toNat % 64 ∧
      (s'.getV 0x1#4).toNat % 32 = (s.getV 0x1#4).toNat % 32 ∧
      ∀ j, j < (0x5#4 : Nibble).toNat → s'.readByte (s'.dataBase + j) = s.readByte (s.dataBase + j) := by
  obtain ⟨t, ht⟩ : ∃ t, exec (.drw 0x0#4 0x1#4 0x5#4) (atI 0x050#16 defaultConfig) = .next t := ⟨_, rfl⟩
  exact ⟨atI 0x050#16 defaultConfig, t, { (atI 0x050#16 defaultConfig).setV 0x2#4 0x40#8 with disp := t.disp },
    by decide, by decide, (show (atI 0x050#16 defaultConfig).dataBase + 4 ≤ 0xFFF by decide), ht, rfl,
    (show (((atI 0x050#16 defaultConfig).setV 0x2#4 0x40#8).getV 0x2#4).toNat % 64 = _ by decide),
    (show (((atI 0x050#16 defaultConfig).setV 0x2#4 0x40#8).getV 0x1#4).toNat % 32 = _ by decide), fun _ _ => rfl⟩

/-- Also for `KeyUpdateAndPresentAck`. -/
theorem witness_Tick : State.reset.status ≠ .halted ∧ haltedState.status = .halted := by decide

theorem witness_TicksFloor : State.reset.status ≠ .halted ∧
    Event.step ∉ [Event.tick, .keyUpdate 0x0001#16, .tick, .presentAck] ∧ Event.step ∉ ([] : List Event) := by decide

theorem witness_KeyTests : ((regs [(0x3#4, 0x0F#8)]).getV 0x3#4).toNat ≤ 0xF ∧
    (State.reset.getV 0x3#4).toNat ≤ 0xF := by decide

/-- A key held at both updates is no edge, and with no key there is none. -/
theorem witness_NoEdge :
    (∀ k, k < 16 → State.reset.keys.getLsbD k = true → State.reset.keysPrev.getLsbD k = true) ∧
    ∃ s : State, s.keys = 0x8001#16 ∧ ∀ k, k < 16 → s.keys.getLsbD k = true → s.keysPrev.getLsbD k = true :=
  ⟨by decide, { State.reset with keys := 0x8001#16, keysPrev := 0x8001#16 }, rfl, by decide⟩

theorem witness_Edge :
    (∃ s : State, 15 < 16 ∧ s.keys.getLsbD 15 = true ∧ s.keysPrev.getLsbD 15 = false) ∧
    ∃ s : State, 0 < 16 ∧ s.keys.getLsbD 0 = true ∧ s.keysPrev.getLsbD 0 = false :=
  ⟨⟨{ State.reset with keys := 0x8000#16 }, by decide, by decide, by decide⟩,
    { State.reset with keys := 0x0001#16 }, by decide, by decide, by decide⟩

theorem witness_OnlyTheListed : ∃ t, exec (.ldRegs 0x3#4) State.reset = .next t ∧ ¬mayWrite (.ldRegs 0x3#4) 0x4#4 :=
  ⟨_, rfl, by unfold mayWrite; decide⟩

/-- An instruction that completes, and one that faults; also for `FaultsArePrecise`. -/
theorem witness_PcFollows : State.reset.status ≠ .halted ∧
    (∃ t, exec (.jpV0 0xFFF#12) State.reset = .next t ∧ t.status ≠ .halted) ∧
    ∃ t, exec .ret State.reset = .next t ∧ t.status = .halted :=
  ⟨by decide, ⟨_, rfl, by decide⟩, _, rfl, rfl⟩

/-- A fault of each kind an instruction raises. -/
theorem witness_FaultKinds :
    (∃ t, exec (.call 0x200#12) (atSp 16) = .next t ∧ t.fault.map (·.kind) = some .stackOverflow) ∧
    (∃ t, exec .ret State.reset = .next t ∧ t.fault.map (·.kind) = some .stackUnderflow) ∧
    (∃ t, exec (.ldRegs 0x0#4) (atI 0xFFFF#16 defaultConfig) = .next t ∧
      t.fault.map (·.kind) = some .memoryOutOfRange) ∧
    (∃ t, exec (.ldB 0x0#4) State.reset = .next t ∧ t.fault.map (·.kind) = some .reservedWrite) ∧
    ∃ t, exec (.skp 0x0#4) (regs [(0x0#4, 0x10#8)]) = .next t ∧ t.fault.map (·.kind) = some .operandOutOfRange :=
  ⟨⟨_, rfl, rfl⟩, ⟨_, rfl, rfl⟩, ⟨_, rfl, rfl⟩, ⟨_, rfl, rfl⟩, _, rfl, rfl⟩

/-- A step of each sort: an instruction, and each event; for `KeysChangeOnlyAtKeyUpdates` and `ReservedBytesNeverChange`. -/
theorem witness_KeysAndReservedBytes :
    (∃ t, step (State.reset.withFetchWord 16 0x00E0) = .next t) ∧
    (∃ t, step { State.reset with events := [.tick] } = .next t) ∧
    (∃ t, step { State.reset with events := [.keyUpdate 0x0001#16] } = .next t) ∧
    (∃ t, step { haltedState with events := [.presentAck] } = .next t) ∧
    State.reset.cfg.lowWritePolicy = .fault := ⟨⟨_, rfl⟩, ⟨_, rfl⟩, ⟨_, rfl⟩, ⟨_, rfl⟩, rfl⟩

/-- A running state with an Fx0A at PC meets the invariant, and its step waits. -/
theorem witness_StepKeeps : (atWord 0x300#16 0xF30A).Inv ∧ ∃ t, step (atWord 0x300#16 0xF30A) = .next t :=
  ⟨{ memCanonical := by decide
     haltedIffFault := by decide
     faultAtPc := fun _ h => nomatch h
     faultBits := fun _ h => nomatch h
     awaitsAtFx0A := fun h => nomatch h }, _, rfl⟩

/-- The state an Fx0A with no edge leaves: it waits at that Fx0A. -/
theorem witness_WaitingForAKey : ∃ s t : State, s.Inv ∧ s.status = .awaitKey ∧ step s = .next t :=
  ⟨{ atWord 0x300#16 0xF30A with status := .awaitKey }, _,
    { memCanonical := by decide
      haltedIffFault := by decide
      faultAtPc := fun _ h => nomatch h
      faultBits := fun _ h => nomatch h
      awaitsAtFx0A := fun _ => ⟨0x3#4, by decide⟩ }, rfl, rfl⟩

/-- Also for `InvariantAtEveryLaunch`. -/
theorem witness_Launch : ∃ s, boot (launchOf cfgHighFont [0x12#8, 0x00#8]) = .ok s ∧
    (launchOf cfgHighFont [0x12#8, 0x00#8]).cfg.fontBase ≤ 0x1B0 ∧
    (launchOf cfgHighFont [0x12#8, 0x00#8]).program.length ≤ 3584 := ⟨_, rfl, by decide, by decide⟩

/-- The longest program. -/
theorem witness_LongestProgram : (zeros 3584).cfg.fontBase ≤ 0x1B0 ∧ (zeros 3584).program.length ≤ 3584 :=
  ⟨by decide, Nat.le_of_eq (zeros_length 3584)⟩

/-- The shortest program that is too long, and the lowest font that does not fit. -/
theorem witness_LaunchRefuses : ((zeros 3585).cfg.fontBase ≤ 0x1B0 ∧ 3584 < (zeros 3585).program.length) ∧
    0x1B0 < (launchOf cfgBadFont []).cfg.fontBase :=
  ⟨⟨by decide, by rw [zeros_length]; decide⟩, by decide⟩

end Sys2Proof.Tests
end

section
/-! O4: the decoder is the opcode table of spec/30_encoding.md R63. The link between the two is the encoder: a word
decodes to an instruction exactly when it is that instruction's encoding, and a word has a row's fixed bits exactly when
it is the encoding of an instruction of that row. -/

namespace Sys2Proof

/-! ### A word built from its known and its remaining fields -/

section
variable {w : Word} {op n : Nibble} {kk : Byte}

theorem formatNNN_of_fieldOp (hop : fieldOp w = op) : formatNNN op (fieldNNN w) = w :=
  hop ▸ formatNNN_fields w

theorem formatXKK_of_fieldOp (hop : fieldOp w = op) : formatXKK op (fieldX w) (fieldKK w) = w :=
  hop ▸ formatXKK_fields w

theorem formatXYN_of_fieldOp (hop : fieldOp w = op) : formatXYN op (fieldX w) (fieldY w) (fieldN w) = w :=
  hop ▸ formatXYN_fields w

theorem formatXKK_of_fieldOp_fieldKK (hop : fieldOp w = op) (hkk : fieldKK w = kk) :
    formatXKK op (fieldX w) kk = w :=
  hkk ▸ formatXKK_of_fieldOp hop

theorem formatXYN_of_fieldOp_fieldN (hop : fieldOp w = op) (hn : fieldN w = n) :
    formatXYN op (fieldX w) (fieldY w) n = w :=
  hn ▸ formatXYN_of_fieldOp hop

/-! ### A word with a row's fixed bits -/

theorem fieldOp_of_and_F000 (h : w &&& 0xF000#16 = formatNNN op 0) : fieldOp w = op := by
  simpa only [and_F000, fieldOp_formatNNN] using congrArg fieldOp h

theorem formatXYN_of_and_F00F (h : w &&& 0xF00F#16 = formatXYN op 0 0 n) :
    formatXYN op (fieldX w) (fieldY w) n = w := by
  rw [and_F00F] at h
  have hop : fieldOp w = op := by simpa only [fieldOp_formatXYN] using congrArg fieldOp h
  have hn : fieldN w = n := by simpa only [fieldN_formatXYN] using congrArg fieldN h
  exact formatXYN_of_fieldOp_fieldN hop hn

theorem formatXKK_of_and_F0FF (h : w &&& 0xF0FF#16 = formatXKK op 0 kk) : formatXKK op (fieldX w) kk = w := by
  rw [and_F0FF] at h
  have hop : fieldOp w = op := by simpa only [fieldOp_formatXKK] using congrArg fieldOp h
  have hkk : fieldKK w = kk := by simpa only [fieldKK_formatXKK] using congrArg fieldKK h
  exact formatXKK_of_fieldOp_fieldKK hop hkk

end

/-! ### Decoding inverts encoding -/

section
variable {w : Word} {i : Instr}

theorem encode_of_decodeGroup0 (h : decodeGroup0 w = some i) : encode i = w := by
  unfold decodeGroup0 at h
  split at h
  case isTrue hw => cases h; exact hw.symm
  case isFalse =>
    split at h <;> cases h
    case isTrue hw => exact hw.symm

theorem encode_of_decodeGroup8 (hop : fieldOp w = 0x8#4) (h : decodeGroup8 w = some i) : encode i = w := by
  unfold decodeGroup8 at h
  split at h <;> cases h
  all_goals exact formatXYN_of_fieldOp_fieldN hop ‹_›

theorem encode_of_decodeGroupE (hop : fieldOp w = 0xE#4) (h : decodeGroupE w = some i) : encode i = w := by
  unfold decodeGroupE at h
  split at h <;> cases h
  all_goals exact formatXKK_of_fieldOp_fieldKK hop ‹_›

theorem encode_of_decodeGroupF (hop : fieldOp w = 0xF#4) (h : decodeGroupF w = some i) : encode i = w := by
  unfold decodeGroupF at h
  split at h <;> cases h
  all_goals exact formatXKK_of_fieldOp_fieldKK hop ‹_›

/-- `h_1` to `h_16` are the digits 0 to F of the opcode map (R59), `h_17` its unreachable last arm. -/
theorem encode_of_decode? (h : decode? w = some i) : encode i = w := by
  unfold decode? at h
  split at h <;> rename_i hop
  case h_1 => exact encode_of_decodeGroup0 h
  case h_2 | h_3 | h_11 | h_12 => cases h; exact formatNNN_of_fieldOp hop
  case h_4 | h_5 | h_7 | h_8 | h_13 => cases h; exact formatXKK_of_fieldOp hop
  case h_6 | h_10 =>
    split at h <;> cases h
    case isTrue hn => exact formatXYN_of_fieldOp_fieldN hop hn
  case h_9 => exact encode_of_decodeGroup8 hop h
  case h_14 => cases h; exact formatXYN_of_fieldOp hop
  case h_15 => exact encode_of_decodeGroupE hop h
  case h_16 => exact encode_of_decodeGroupF hop h
  case h_17 => cases h

theorem decode?_encode (i : Instr) : decode? (encode i) = some i := by
  cases i with
  | cls | ret => rfl
  | jp | call | ldI | jpV0 => simp [encode, decode?, fieldOp_formatNNN, fieldNNN_formatNNN]
  | seByte | sneByte | ldByte | addByte | rnd =>
    simp [encode, decode?, fieldOp_formatXKK, fieldX_formatXKK, fieldKK_formatXKK]
  | seReg | sneReg | drw =>
    simp [encode, decode?, fieldOp_formatXYN, fieldX_formatXYN, fieldY_formatXYN, fieldN_formatXYN]
  | ldReg | orReg | andReg | xorReg | addReg | subReg | shrReg | subnReg | shlReg =>
    simp [encode, decode?, decodeGroup8, fieldOp_formatXYN, fieldX_formatXYN, fieldY_formatXYN, fieldN_formatXYN]
  | skp | sknp =>
    simp [encode, decode?, decodeGroupE, fieldOp_formatXKK, fieldX_formatXKK, fieldKK_formatXKK]
  | ldVxDT | ldVxK | ldDTVx | ldSTVx | addI | ldF | ldB | stRegs | ldRegs =>
    simp [encode, decode?, decodeGroupF, fieldOp_formatXKK, fieldX_formatXKK, fieldKK_formatXKK]

theorem decode?_eq_some_iff : decode? w = some i ↔ encode i = w :=
  ⟨encode_of_decode?, fun h => h ▸ decode?_encode i⟩

theorem decodeWord_eq_ok_iff : decodeWord w = .ok i ↔ encode i = w := by
  rw [← decode?_eq_some_iff]
  unfold decodeWord
  cases decode? w <;> simp

theorem decodeWord_total (w : Word) :
    (∃ i, decodeWord w = .ok i) ∨ decodeWord w = .error (.unknownOpcode w) := by
  unfold decodeWord
  cases decode? w with
  | some i => exact .inl ⟨i, rfl⟩
  | none => exact .inr rfl

end

/-! ### A row's fixed bits -/

/-- The word has the fixed bits of a row of the opcode table (R63). -/
abbrev MatchesRow (w : Word) (k : Fin 34) : Prop :=
  w &&& (opcodeRows[k.val]'k.isLt).2 = (opcodeRows[k.val]'k.isLt).1

open Laws in
theorem encode_matchesRow : (i : Instr) → MatchesRow (encode i) i.rowIndex
  | .cls => FixedBits.cls
  | .ret => FixedBits.ret
  | .jp nnn => FixedBits.jp nnn
  | .call nnn => FixedBits.call nnn
  | .seByte x kk => FixedBits.seByte x kk
  | .sneByte x kk => FixedBits.sneByte x kk
  | .seReg x y => FixedBits.seReg x y
  | .ldByte x kk => FixedBits.ldByte x kk
  | .addByte x kk => FixedBits.addByte x kk
  | .ldReg x y => FixedBits.ldReg x y
  | .orReg x y => FixedBits.orReg x y
  | .andReg x y => FixedBits.andReg x y
  | .xorReg x y => FixedBits.xorReg x y
  | .addReg x y => FixedBits.addReg x y
  | .subReg x y => FixedBits.subReg x y
  | .shrReg x y => FixedBits.shrReg x y
  | .subnReg x y => FixedBits.subnReg x y
  | .shlReg x y => FixedBits.shlReg x y
  | .sneReg x y => FixedBits.sneReg x y
  | .ldI nnn => FixedBits.ldI nnn
  | .jpV0 nnn => FixedBits.jpV0 nnn
  | .rnd x kk => FixedBits.rnd x kk
  | .drw x y n => FixedBits.drw x y n
  | .skp x => FixedBits.skp x
  | .sknp x => FixedBits.sknp x
  | .ldVxDT x => FixedBits.ldVxDT x
  | .ldVxK x => FixedBits.ldVxK x
  | .ldDTVx x => FixedBits.ldDTVx x
  | .ldSTVx x => FixedBits.ldSTVx x
  | .addI x => FixedBits.addI x
  | .ldF x => FixedBits.ldF x
  | .ldB x => FixedBits.ldB x
  | .stRegs x => FixedBits.stRegs x
  | .ldRegs x => FixedBits.ldRegs x

/-- The instruction of each row, its fields read from the word. -/
theorem exists_encode_of_matchesRow {w : Word} : (k : Fin 34) → MatchesRow w k → ∃ i, encode i = w ∧ i.rowIndex = k
  | 0, h => ⟨.cls, h.symm.trans BitVec.and_allOnes, rfl⟩
  | 1, h => ⟨.ret, h.symm.trans BitVec.and_allOnes, rfl⟩
  | 2, h => ⟨.jp (fieldNNN w), formatNNN_of_fieldOp (fieldOp_of_and_F000 h), rfl⟩
  | 3, h => ⟨.call (fieldNNN w), formatNNN_of_fieldOp (fieldOp_of_and_F000 h), rfl⟩
  | 4, h => ⟨.seByte (fieldX w) (fieldKK w), formatXKK_of_fieldOp (fieldOp_of_and_F000 h), rfl⟩
  | 5, h => ⟨.sneByte (fieldX w) (fieldKK w), formatXKK_of_fieldOp (fieldOp_of_and_F000 h), rfl⟩
  | 6, h => ⟨.seReg (fieldX w) (fieldY w), formatXYN_of_and_F00F h, rfl⟩
  | 7, h => ⟨.ldByte (fieldX w) (fieldKK w), formatXKK_of_fieldOp (fieldOp_of_and_F000 h), rfl⟩
  | 8, h => ⟨.addByte (fieldX w) (fieldKK w), formatXKK_of_fieldOp (fieldOp_of_and_F000 h), rfl⟩
  | 9, h => ⟨.ldReg (fieldX w) (fieldY w), formatXYN_of_and_F00F h, rfl⟩
  | 10, h => ⟨.orReg (fieldX w) (fieldY w), formatXYN_of_and_F00F h, rfl⟩
  | 11, h => ⟨.andReg (fieldX w) (fieldY w), formatXYN_of_and_F00F h, rfl⟩
  | 12, h => ⟨.xorReg (fieldX w) (fieldY w), formatXYN_of_and_F00F h, rfl⟩
  | 13, h => ⟨.addReg (fieldX w) (fieldY w), formatXYN_of_and_F00F h, rfl⟩
  | 14, h => ⟨.subReg (fieldX w) (fieldY w), formatXYN_of_and_F00F h, rfl⟩
  | 15, h => ⟨.shrReg (fieldX w) (fieldY w), formatXYN_of_and_F00F h, rfl⟩
  | 16, h => ⟨.subnReg (fieldX w) (fieldY w), formatXYN_of_and_F00F h, rfl⟩
  | 17, h => ⟨.shlReg (fieldX w) (fieldY w), formatXYN_of_and_F00F h, rfl⟩
  | 18, h => ⟨.sneReg (fieldX w) (fieldY w), formatXYN_of_and_F00F h, rfl⟩
  | 19, h => ⟨.ldI (fieldNNN w), formatNNN_of_fieldOp (fieldOp_of_and_F000 h), rfl⟩
  | 20, h => ⟨.jpV0 (fieldNNN w), formatNNN_of_fieldOp (fieldOp_of_and_F000 h), rfl⟩
  | 21, h => ⟨.rnd (fieldX w) (fieldKK w), formatXKK_of_fieldOp (fieldOp_of_and_F000 h), rfl⟩
  | 22, h => ⟨.drw (fieldX w) (fieldY w) (fieldN w), formatXYN_of_fieldOp (fieldOp_of_and_F000 h), rfl⟩
  | 23, h => ⟨.skp (fieldX w), formatXKK_of_and_F0FF h, rfl⟩
  | 24, h => ⟨.sknp (fieldX w), formatXKK_of_and_F0FF h, rfl⟩
  | 25, h => ⟨.ldVxDT (fieldX w), formatXKK_of_and_F0FF h, rfl⟩
  | 26, h => ⟨.ldVxK (fieldX w), formatXKK_of_and_F0FF h, rfl⟩
  | 27, h => ⟨.ldDTVx (fieldX w), formatXKK_of_and_F0FF h, rfl⟩
  | 28, h => ⟨.ldSTVx (fieldX w), formatXKK_of_and_F0FF h, rfl⟩
  | 29, h => ⟨.addI (fieldX w), formatXKK_of_and_F0FF h, rfl⟩
  | 30, h => ⟨.ldF (fieldX w), formatXKK_of_and_F0FF h, rfl⟩
  | 31, h => ⟨.ldB (fieldX w), formatXKK_of_and_F0FF h, rfl⟩
  | 32, h => ⟨.stRegs (fieldX w), formatXKK_of_and_F0FF h, rfl⟩
  | 33, h => ⟨.ldRegs (fieldX w), formatXKK_of_and_F0FF h, rfl⟩
  | ⟨n + 34, hn⟩, _ => absurd hn (by omega)

theorem matchesRow_iff_decodeWord (w : Word) (k : Fin 34) :
    MatchesRow w k ↔ ∃ i, decodeWord w = .ok i ∧ i.rowIndex = k := by
  simp only [decodeWord_eq_ok_iff]
  constructor
  · exact exists_encode_of_matchesRow k
  · rintro ⟨i, rfl, rfl⟩
    exact encode_matchesRow i

/-- Both rows are that of the one instruction the word decodes to. -/
theorem matchesRow_unique (w : Word) (j k : Fin 34) (hj : MatchesRow w j) (hk : MatchesRow w k) : j = k := by
  obtain ⟨i, hi, rfl⟩ := (matchesRow_iff_decodeWord w j).mp hj
  obtain ⟨i', hi', rfl⟩ := (matchesRow_iff_decodeWord w k).mp hk
  cases hi.symm.trans hi'
  rfl

/-- Settles O4: a row's fixed bits give the row's instruction through the encoder, and a decoded word is the encoding of
its instruction, which has the fixed bits of its row. -/
theorem decodeFollowsTheOpcodeTable : Obligations.DecodeFollowsTheOpcodeTable :=
  ⟨matchesRow_iff_decodeWord, matchesRow_unique, decodeWord_total⟩

end Sys2Proof
end

section
/-! O11, O12, O13, O16, O17: jumps, calls, returns and skips (spec/40_control_flow.md). Call and return are read off the
laws of Push and Pop, and the four skips are one argument about `State.skipIf`. -/

namespace Sys2Proof.Machine

/-! ### What the instructions are -/

theorem exec_jp (nnn : Addr12) (s : State) : exec (.jp nnn) s = .next (s.setPc (zextAddr nnn)) := rfl

theorem exec_seByte (x : Reg) (kk : Byte) (s : State) :
    exec (.seByte x kk) s = .next (s.skipIf (s.getV x == kk)) := rfl

theorem exec_sneByte (x : Reg) (kk : Byte) (s : State) :
    exec (.sneByte x kk) s = .next (s.skipIf (s.getV x != kk)) := rfl

theorem exec_seReg (x y : Reg) (s : State) : exec (.seReg x y) s = .next (s.skipIf (s.getV x == s.getV y)) := rfl

theorem exec_sneReg (x y : Reg) (s : State) : exec (.sneReg x y) s = .next (s.skipIf (s.getV x != s.getV y)) := rfl

section
variable {s s' : State}

theorem exec_ret_of_pop {v : Word} (h : s.pop = some (v, s')) : exec .ret s = .next (s'.setPc v) := by
  simp only [exec, execRet, h]

theorem exec_ret_of_empty (h : s.sp.val = 0) :
    exec .ret s = .next (faulted s .stackUnderflow (some (encode .ret)) .absent) := by
  simp only [exec, execRet, State.pop_eq_none.mpr h, State.raise]

theorem exec_call_of_push {nnn : Addr12} (h : s.push (s.pc + 2#16) = some s') :
    exec (.call nnn) s = .next (s'.setPc (zextAddr nnn)) := by
  simp only [exec, execCall, h]

theorem exec_call_of_full (nnn : Addr12) (h : s.sp.val = 16) :
    exec (.call nnn) s = .next (faulted s .stackOverflow (some (encode (.call nnn))) .absent) := by
  simp only [exec, execCall, State.push_eq_none.mpr h, State.raise]

end

/-! ### A new PC -/

@[simp] theorem toNat_zextAddr (nnn : Addr12) : (zextAddr nnn).toNat = nnn.toNat :=
  BitVec.toNat_setWidth_of_le (by decide)

theorem onlyPc_setPc (s : State) (w : Word) : OnlyPc s (s.setPc w) := ⟨s.setPc_readByte w, rfl⟩

/-- A skip instruction whose test decides `p` completes as R75 says. -/
theorem exec_skip {i : Instr} {s : State} {taken : Bool} {p : Prop} [Decidable p]
    (h : exec i s = .next (s.skipIf taken)) (htaken : taken = true ↔ p) :
    ∃ t, exec i s = .next t ∧ t.pc = (if p then s.pc + 4#16 else s.pc + 2#16) ∧ OnlyPc s t := by
  refine ⟨_, h, ?_, onlyPc_setPc s _⟩
  simp only [State.skipIf_eq, State.setPc_pc, htaken]

/-- Groups 5 and 9 hold the one low digit 0 (R64). -/
theorem decodeWord_formatXYN_unknown {op n : Nibble} (x y : Reg) (hop : op = 0x5#4 ∨ op = 0x9#4) (hn : n ≠ 0x0#4) :
    decodeWord (formatXYN op x y n) = .error (.unknownOpcode (formatXYN op x y n)) := by
  obtain rfl | rfl := hop <;>
    simp [decodeWord, decode?, fieldOp_formatXYN, fieldN_formatXYN, hn]

/-! ### The obligations -/

/-- Settles O11, from the laws of Pop. -/
theorem returnPopsPc : Obligations.ReturnPopsPc := fun s => by
  refine ⟨rfl, exec_ret_of_empty, fun hsp => ?_⟩
  obtain ⟨v, s', hpop⟩ := State.pop_isSome hsp
  obtain ⟨-, hsp', hslot, hframe⟩ := State.pop_cases hpop
  have hmem : KeepsMemory s s' := fun a => by rw [hframe]; rfl
  exact ⟨s'.setPc v, exec_ret_of_pop hpop, hslot, hsp', hmem, congrArg (State.setPc · v) hframe⟩

/-- Settles O12; where the target is PC, the write of PC writes the value it holds. -/
theorem jumpSetsPc : Obligations.JumpSetsPc := fun s nnn => by
  refine ⟨rfl, ⟨_, exec_jp nnn s, toNat_zextAddr nnn, onlyPc_setPc s _⟩, fun hpc => ?_⟩
  have htarget : zextAddr nnn = s.pc := BitVec.eq_of_toNat_eq (by rw [toNat_zextAddr, hpc])
  rw [exec_jp, htarget]
  rfl

/-- Settles O13, from the laws of Push. -/
theorem callPushesTheNextAddress : Obligations.CallPushesTheNextAddress := fun s nnn => by
  refine ⟨rfl, exec_call_of_full nnn, fun hsp => ?_⟩
  obtain ⟨s', hpush⟩ := State.push_isSome (s.pc + 2#16) hsp
  obtain ⟨-, hsp', hslot, hslots, hframe⟩ := State.push_cases hpush
  have hmem : KeepsMemory s s' := fun a => by rw [hframe]; rfl
  exact ⟨s'.setPc (zextAddr nnn), exec_call_of_push hpush, toNat_zextAddr nnn, hsp', hslot, hslots, hmem,
    congrArg (State.setPc · (zextAddr nnn)) hframe⟩

/-- Settles O16. -/
theorem skipsComparingAByte : Obligations.SkipsComparingAByte := fun s x kk =>
  ⟨⟨rfl, exec_skip (exec_seByte x kk s) beq_iff_eq⟩, rfl, exec_skip (exec_sneByte x kk s) bne_iff_ne⟩

/-- Settles O17: the skips as for O16, the other low digits by the decoder. -/
theorem skipsComparingRegisters : Obligations.SkipsComparingRegisters := fun s x y =>
  ⟨⟨rfl, fun _ => decodeWord_formatXYN_unknown x y (.inl rfl), exec_skip (exec_seReg x y s) beq_iff_eq⟩,
    rfl, fun _ => decodeWord_formatXYN_unknown x y (.inr rfl), exec_skip (exec_sneReg x y s) bne_iff_ne⟩

end Sys2Proof.Machine
end

section
/-! O19: the addition of a byte (spec/41_alu.md R84). -/

namespace Sys2Proof.Machine

theorem exec_addByte (x : Reg) (kk : Byte) (s : State) :
    exec (.addByte x kk) s = .next (s.setV x (s.getV x + kk)).advance := rfl

/-- A write of one register and the advance of PC change nothing else. -/
theorem onlyRegs_setV_advance (s : State) (x : Reg) (b : Byte) : OnlyRegs [x] s (s.setV x b).advance := by
  refine ⟨fun r hr => ?_, (s.setV x b).setPc_readByte _, rfl, rfl⟩
  rw [State.advance_eq, State.setPc_getV, State.getV_setV, if_neg (List.ne_of_not_mem_cons hr)]

/-- Settles O19; VF, where it is not the destination, is one of the registers kept. -/
theorem addByteWrapsWithoutFlag : Obligations.AddByteWrapsWithoutFlag := fun s x kk => by
  obtain ⟨hregs, hrest⟩ := onlyRegs_setV_advance s x (s.getV x + kk)
  refine ⟨rfl, _, exec_addByte x kk s, ?_, fun hx => hregs VF (mt List.mem_singleton.mp hx.symm), hregs, hrest⟩
  rw [State.advance_eq, State.setPc_getV, State.getV_setV_self, BitVec.toNat_add]

end Sys2Proof.Machine
end

section
/-! O25: the load of the index register (spec/42_index_memory.md R96). -/

namespace Sys2Proof.Machine

theorem exec_ldI (nnn : Addr12) (s : State) : exec (.ldI nnn) s = .next (s.setI (zextAddr nnn)).advance := rfl

/-- A write of I and the advance of PC leave memory alone, move PC to the next instruction and change nothing else. -/
theorem setI_advance_frame (s : State) (w : Word) :
    KeepsMemory s (s.setI w).advance ∧ (s.setI w).advance.pc = s.pc + 2#16 ∧
      (s.setI w).advance = { s with i := (s.setI w).advance.i, pc := (s.setI w).advance.pc } :=
  ⟨(s.setI w).setPc_readByte _, rfl, rfl⟩

/-- Settles O25; I takes the zero-extended address. -/
theorem loadIndexImmediate : Obligations.LoadIndexImmediate := fun s nnn =>
  ⟨rfl, _, exec_ldI nnn s, toNat_zextAddr nnn, setI_advance_frame s (zextAddr nnn)⟩

end Sys2Proof.Machine
end

section
/-! O37: the timer tick (spec/60_exceptions.md R122). -/

namespace Sys2Proof.Machine

/-- The decrement is subtraction floored at 0: a timer that is not 0 does not borrow. -/
@[simp] theorem toNat_countDown (t : Byte) : (countDown t).toNat = t.toNat - 1 := by
  unfold countDown
  split
  case isTrue hzero => simp [hzero]
  case isFalse hpos => bv_omega

theorem State.tick_of_halted {s : State} (h : s.status = .halted) : s.tick = s := if_pos h

theorem State.tick_of_not_halted {s : State} (h : s.status ≠ .halted) :
    s.tick = { s with dt := countDown s.dt, st := countDown s.st } := if_neg h

theorem react_tick (s : State) : react .tick s = .next s.tick := rfl

/-- Settles O37: outside HALTED the tick is one `countDown` of each timer, and `tick_cases` is its frame. -/
theorem tickCountsEachTimerDown : Obligations.TickCountsEachTimerDown := fun s => by
  refine ⟨fun hhalted => ?_, fun hlive => ⟨s.tick, react_tick s, ?_, ?_, tick_cases s⟩⟩
  · rw [react_tick, State.tick_of_halted hhalted]
  · rw [State.tick_of_not_halted hlive, toNat_countDown]
  · rw [State.tick_of_not_halted hlive, toNat_countDown]

end Sys2Proof.Machine
end

section
/-! O1, O2, O3, O5: encoding and decoding (spec/30_encoding.md). That decoding and encoding are inverse to each other is
`decodeWord_eq_ok_iff`; the unknown words are found group by group of the opcode map. -/

namespace Sys2Proof

theorem decodeWord_encode (i : Instr) : decodeWord (encode i) = .ok i := decodeWord_eq_ok_iff.mpr rfl

theorem decodeBytes_encodeBytes (i : Instr) (rest : List Byte) :
    decodeBytes (encodeBytes i ++ rest) = .ok (i, rest) := by
  have hword : decodeWord (wordOfBytes ((encode i).extractLsb' 8 8) ((encode i).extractLsb' 0 8)) = .ok i := by
    rw [wordOfBytes_bytes, decodeWord_encode]
  simp only [encodeBytes, bytesOfWord, List.cons_append, List.nil_append, decodeBytes, hword]

/-- Settles O2. -/
theorem encodeThenDecodeGivesTheInstruction : Obligations.EncodeThenDecodeGivesTheInstruction := fun i rest =>
  ⟨decodeWord_encode i, decodeBytes_encodeBytes i rest⟩

/-- Settles O3. -/
theorem decodeThenEncodeGivesTheWord : Obligations.DecodeThenEncodeGivesTheWord := fun _ _ =>
  decodeWord_eq_ok_iff.mp

/-! ### The unknown words -/

section
variable {w : Word}

theorem decodeWord_eq_unknown_iff : decodeWord w = .error (.unknownOpcode w) ↔ decode? w = none := by
  unfold decodeWord
  cases decode? w <;> simp

theorem decodeGroup0_eq_none_iff : decodeGroup0 w = none ↔ w ≠ 0x00E0#16 ∧ w ≠ 0x00EE#16 := by
  unfold decodeGroup0
  split
  case isTrue hcls => simp [hcls]
  case isFalse hcls => simp [hcls]

/-- The nine low digits of group 8 and the seven of the list are all sixteen. -/
theorem decodeGroup8_eq_none_iff :
    decodeGroup8 w = none ↔ fieldN w ∈ [0x8#4, 0x9#4, 0xA#4, 0xB#4, 0xC#4, 0xD#4, 0xF#4] := by
  have hall : ∀ n : Nibble, n ∈ [0x0#4, 0x1#4, 0x2#4, 0x3#4, 0x4#4, 0x5#4, 0x6#4, 0x7#4, 0xE#4] ∨
      n ∈ [0x8#4, 0x9#4, 0xA#4, 0xB#4, 0xC#4, 0xD#4, 0xF#4] := by decide
  unfold decodeGroup8
  split
  case h_10 =>
    obtain h | h := hall (fieldN w)
    · simp only [List.mem_cons, List.not_mem_nil, or_false] at h; tauto
    · simpa using h
  all_goals simp [*]

theorem decodeGroupE_eq_none_iff : decodeGroupE w = none ↔ fieldKK w ∉ [0x9E#8, 0xA1#8] := by
  unfold decodeGroupE
  split
  case h_3 => simp; and_intros <;> assumption
  all_goals simp [*]

theorem decodeGroupF_eq_none_iff :
    decodeGroupF w = none ↔
      fieldKK w ∉ [0x07#8, 0x0A#8, 0x15#8, 0x18#8, 0x1E#8, 0x29#8, 0x33#8, 0x55#8, 0x65#8] := by
  unfold decodeGroupF
  split
  case h_10 => simp; and_intros <;> assumption
  all_goals simp [*]

end

/-- Settles O5. `h_1` to `h_16` are the digits 0 to F of the opcode map (R59), `h_17` its unreachable last arm. -/
theorem unknownWordsAreExactlyTheListed : Obligations.UnknownWordsAreExactlyTheListed := fun w => by
  have hall : ∀ op : Nibble, op ∈ [0x0#4, 0x1#4, 0x2#4, 0x3#4, 0x4#4, 0x5#4, 0x6#4, 0x7#4, 0x8#4, 0x9#4, 0xA#4, 0xB#4,
      0xC#4, 0xD#4, 0xE#4, 0xF#4] := by decide
  rw [decodeWord_eq_unknown_iff]
  unfold decode?
  split <;> rename_i hop
  case h_1 => simp [hop, decodeGroup0_eq_none_iff]
  case h_6 | h_10 => simp [hop]
  case h_9 => simp [hop, decodeGroup8_eq_none_iff]
  case h_15 => simp [hop, decodeGroupE_eq_none_iff]
  case h_16 => simp [hop, decodeGroupF_eq_none_iff]
  case h_17 =>
    have hdigit := hall (fieldOp w)
    simp only [List.mem_cons, List.not_mem_nil, or_false] at hdigit
    tauto
  all_goals simp [hop]

/-- Settles O1: ten of the words are encodings, and 0123 is a word of group 0 that is not in the map. -/
theorem knownWordsDecode : Obligations.KnownWordsDecode :=
  ⟨decodeWord_encode .cls, decodeWord_encode .ret, decodeWord_encode (.call 0xABC#12),
    decodeWord_encode (.seByte 0xA#4 0x5C#8), decodeWord_encode (.subReg 0xA#4 0xB#4),
    decodeWord_encode (.shlReg 0xA#4 0xB#4), decodeWord_encode (.ldI 0xABC#12),
    decodeWord_encode (.drw 0xA#4 0xB#4 0x5#4), decodeWord_encode (.sknp 0xA#4), decodeWord_encode (.ldB 0xA#4),
    (unknownWordsAreExactlyTheListed _).mpr (.inl (by decide))⟩

end Sys2Proof
end

section
/-! O6, O7, O8, O9, O10, O38, O39: the step cycle (spec/30_encoding.md R66-R69) and the host's events
(spec/60_exceptions.md R117, R122-R126). An event is a step or one of the host's;
`step_cases` says what either can do. -/

namespace Sys2Proof.Machine

section
variable {s t : State}

/-! ### The instruction step -/

theorem fetchTrap_eq_none_iff : s.fetchTrap = none ↔ s.pc.toNat + 1 ≤ 0xFFF := by
  rw [State.fetchTrap, readTrap_eq_none]
  omega

theorem cpuStep_of_fetchTrap {trap : Trap} (hlive : s.live) (htrap : s.fetchTrap = some trap) :
    cpuStep s = .next (s.raise trap none) := by
  simp only [cpuStep, if_neg hlive, htrap]

theorem cpuStep_of_unknown {r : DecodeReject} (hlive : s.live) (htrap : s.fetchTrap = none)
    (hdec : decodeWord s.fetchWord = .error r) :
    cpuStep s = .next (s.raise ⟨.unknownOpcode, .absent⟩ (some s.fetchWord)) := by
  simp only [cpuStep, if_neg hlive, htrap, hdec]

theorem cpuStep_of_decodeWord {i : Instr} (hlive : s.live) (htrap : s.fetchTrap = none)
    (hdec : decodeWord s.fetchWord = .ok i) : cpuStep s = exec i s := by
  simp only [cpuStep, if_neg hlive, htrap, hdec]

theorem cpuStep_of_halted (h : s.status = .halted) : cpuStep s = .fault .halted := if_pos h

theorem step_of_nextEvent_step (h : s.nextEvent = .step) : step s = cpuStep s.popEvent := by
  rw [step_eq, h, react]

/-! ### The host's events -/

/-- What the host's events write, each some of it. -/
abbrev OnlyHostFields (s t : State) : Prop :=
  t = { s with dt := t.dt, st := t.st, drawFlag := t.drawFlag, keys := t.keys, keysPrev := t.keysPrev }

theorem react_host {e : Event} (he : e ≠ .step) (s : State) : ∃ t, react e s = .next t ∧ OnlyHostFields s t := by
  cases e with
  | step => exact absurd rfl he
  | tick => exact ⟨_, rfl, by rw [tick_cases]⟩
  | keyUpdate new => exact ⟨_, rfl, by rw [keyUpdate_cases]⟩
  | presentAck => exact ⟨_, rfl, by rw [presentAck_cases]⟩

theorem react_of_halted {e : Event} (he : e ≠ .step) (h : s.status = .halted) : react e s = .next s := by
  cases e with
  | step => exact absurd rfl he
  | tick => rw [react, State.tick, if_pos h]
  | keyUpdate new => rw [react, State.keyUpdate, if_pos h]
  | presentAck => rw [react, State.presentAck, if_pos h]

theorem react_keyUpdate_of_live (hlive : s.live) (new : Word) :
    react (.keyUpdate new) s = .next { s with keysPrev := s.keys, keys := new } := by
  rw [react, State.keyUpdate, if_neg hlive]

theorem react_presentAck_of_live (hlive : s.live) : react .presentAck s = .next { s with drawFlag := false } := by
  rw [react, State.presentAck, if_neg hlive]

/-- The inversion of a step: an instruction step, or a host event within its fields. -/
theorem step_cases (h : step s = .next t) :
    s.nextEvent = .step ∧ cpuStep s.popEvent = .next t ∨ s.nextEvent ≠ .step ∧ OnlyHostFields s.popEvent t := by
  by_cases he : s.nextEvent = .step
  · exact .inl ⟨he, step_of_nextEvent_step he ▸ h⟩
  · obtain ⟨t', ht', hframe⟩ := react_host he s.popEvent
    cases ht'.symm.trans h
    exact .inr ⟨he, hframe⟩

end

/-! ### The obligations on one step -/

/-- Settles O6. -/
theorem stepRunsTheDecodedInstruction : Obligations.StepRunsTheDecodedInstruction := fun s _ hlive hevent hpc hdec =>
  (step_of_nextEvent_step hevent).trans
    (cpuStep_of_decodeWord (s := s.popEvent) hlive (fetchTrap_eq_none_iff.mpr hpc) hdec)

/-- Settles O7. -/
theorem fetchBeyondMemoryFaults : Obligations.FetchBeyondMemoryFaults := fun s hlive hevent hpc => by
  have htrap : s.popEvent.fetchTrap = some ⟨.memoryOutOfRange, .addr (firstBeyond s.pc.toNat)⟩ := by
    rw [fetchTrap_eq, State.popEvent_pc, if_pos (by omega)]
  exact (step_of_nextEvent_step hevent).trans (cpuStep_of_fetchTrap (s := s.popEvent) hlive htrap)

/-- Settles O8. -/
theorem unknownWordFaults : Obligations.UnknownWordFaults := fun s w hlive hevent hpc hword hdec => by
  subst hword
  exact (step_of_nextEvent_step hevent).trans
    (cpuStep_of_unknown (s := s.popEvent) hlive (fetchTrap_eq_none_iff.mpr hpc) hdec)

/-- Settles O9. -/
theorem haltedIsTerminal : Obligations.HaltedIsTerminal := fun s hhalted =>
  ⟨fun hevent => (step_of_nextEvent_step hevent).trans (cpuStep_of_halted (s := s.popEvent) hhalted),
    fun hevent => react_of_halted (s := s.popEvent) hevent hhalted⟩

/-- Settles O10. -/
theorem stepStopsOnlyWhenHalted : Obligations.StepStopsOnlyWhenHalted := fun s => by
  by_cases hevent : s.nextEvent = .step
  · rw [step_of_nextEvent_step hevent]
    obtain ⟨hhalted, hstop⟩ | ⟨hlive, t, ht⟩ := cpuStep_answers s.popEvent
    · simpa [hstop, hevent] using hhalted
    · simpa [ht, hevent] using hlive
  · obtain ⟨t, ht, -⟩ := react_host hevent s.popEvent
    simp [step_eq, ht, hevent]

/-- Settles O39. -/
theorem keyUpdateAndPresentAck : Obligations.KeyUpdateAndPresentAck := fun _ new hlive =>
  ⟨react_keyUpdate_of_live hlive new, react_presentAck_of_live hlive⟩

/-! ### A run of host events -/

/-- A host event takes 1 off each timer when it is a tick, and leaves both alone when it is not. -/
theorem react_host_timers {e : Event} {s : State} (he : e ≠ .step) (hlive : s.live) :
    ∃ t, react e s = .next t ∧ t.dt.toNat = s.dt.toNat - [e].count .tick ∧
      t.st.toNat = s.st.toNat - [e].count .tick ∧ OnlyHostFields s t := by
  cases e with
  | step => exact absurd rfl he
  | tick =>
    refine ⟨_, react_tick s, ?_⟩
    simp [State.tick_of_not_halted hlive]
  | keyUpdate new => exact ⟨_, react_keyUpdate_of_live hlive new, rfl, rfl, rfl⟩
  | presentAck => exact ⟨_, react_presentAck_of_live hlive, rfl, rfl, rfl⟩

theorem run_of_step_next {s t : State} (h : step s = .next t) (k : Nat) :
    Sys2Proof.core.run (k + 1) s = Sys2Proof.core.run k t := by
  have hcore : Sys2Proof.core.step s = .next t := h
  simp only [Host.Core.run, hcore]

theorem run_host_events {es : List Event} (hes : Event.step ∉ es) {s : State} (hlive : s.live) :
    ∃ t : State, Sys2Proof.core.run es.length { s with events := es } = .next t ∧
      t.dt.toNat = s.dt.toNat - es.count .tick ∧ t.st.toNat = s.st.toNat - es.count .tick ∧
      OnlyHostFields { s with events := [] } t := by
  induction es generalizing s with
  | nil => exact ⟨_, rfl, rfl, rfl, rfl⟩
  | cons e es ih =>
    obtain ⟨he, hes⟩ := not_or.mp (mt List.mem_cons.mpr hes)
    obtain ⟨t, ht, hdt, hst, hframe⟩ := react_host_timers (s := { s with events := es }) (Ne.symm he) hlive
    have hevents : t = { t with events := es } := by rw [hframe]
    have hlive' : t.live := by rw [hframe]; exact hlive
    obtain ⟨u, hu, hdt', hst', hframe'⟩ := ih hes hlive'
    have hcount : (e :: es).count .tick = [e].count .tick + es.count .tick := List.count_append (l₁ := [e])
    refine ⟨u, ?_, ?_, ?_, hframe'.trans (by rw [hframe])⟩
    · rw [List.length_cons, run_of_step_next (s := { s with events := e :: es }) ht, hevents]
      exact hu
    · rw [hdt', hdt, hcount, Nat.sub_sub]
    · rw [hst', hst, hcount, Nat.sub_sub]

theorem tone_eq_false_iff (s : State) : s.tone = false ↔ s.st.toNat = 0 := by
  rw [State.tone, bne_eq_false_iff_eq, BitVec.toNat_eq]
  rfl

/-- Settles O38. -/
theorem ticksFloorAtZero : Obligations.TicksFloorAtZero := fun es s hlive hes => by
  obtain ⟨t, ht, hdt, hst, hframe⟩ := run_host_events hes hlive
  have htone : t.tone = false ↔ s.st.toNat ≤ es.count .tick := by
    rw [tone_eq_false_iff, hst, Nat.sub_eq_zero_iff_le]
  exact ⟨t, ht, hdt, hst, htone, by rw [hframe], by rw [hframe], by rw [hframe], by rw [hframe],
    fun a => by rw [hframe]; rfl⟩

end Sys2Proof.Machine
end

section
/-! O49, O50, O52, O53: what every event keeps. An instruction is taken apart by `exec_cases`, an instruction step
by `cpuStep_cases`, an event by `step_cases`; each kind of next state (a fault, a completion, a host event) has its
lemma. O51, O54, O55: what a launch gives. -/

namespace Sys2Proof.Machine

section
variable {s t : State} {i : Instr}

theorem readByte_congr (hcfg : t.cfg = s.cfg) (hmem : t.mem = s.mem) : KeepsMemory s t := fun a => by
  rw [State.readByte, State.readByte, hcfg, hmem]

/-! ### The reserved range (spec/20_memory.md R43, R47) -/

/-- The parameters are unchanged, and under LOW_WRITE_POLICY = FAULT every byte below 0x200. -/
abbrev KeepsReserved (s t : State) : Prop :=
  t.cfg = s.cfg ∧ (s.cfg.lowWritePolicy = .fault → ∀ a, a < 0x200 → t.readByte a = s.readByte a)

theorem keepsReserved_of_keepsMemory (hcfg : t.cfg = s.cfg) (hmem : KeepsMemory s t) : KeepsReserved s t :=
  ⟨hcfg, fun _ a _ => hmem a⟩

/-- Under FAULT the check lets a run of writes through only where it starts at 0x200 or above. -/
theorem Completed.keepsReserved (hc : Completed i s t) : KeepsReserved s t := by
  obtain hmem | ⟨bs, hpos, htrap, hmem⟩ := hc.mem
  · exact keepsReserved_of_keepsMemory hc.cfg (readByte_congr hc.cfg hmem)
  · refine ⟨hc.cfg, fun hpolicy a ha => ?_⟩
    have hbase : 0x200 ≤ s.dataBase := by simpa [hpolicy] using ((writeTrap_eq_none hpos).mp htrap).2
    rw [State.readByte, hc.cfg, hmem]
    exact Memory.get_setBytes_outside s.mem bs (.inl (Nat.lt_of_lt_of_le ha hbase))

theorem cpuStep_keepsReserved (h : cpuStep s = .next t) : KeepsReserved s t := by
  obtain ⟨-, ⟨r, -, rfl⟩ | ⟨-, -, rfl⟩ | ⟨-, i, -, hexec⟩⟩ := cpuStep_cases h
  · exact keepsReserved_of_keepsMemory rfl (s.raise_readByte _ _)
  · exact keepsReserved_of_keepsMemory rfl (s.raise_readByte _ _)
  · obtain ⟨r, rfl⟩ | hc := exec_cases hexec
    · exact keepsReserved_of_keepsMemory rfl (s.raise_readByte _ _)
    · exact hc.keepsReserved

/-- Settles O49. -/
theorem reservedBytesNeverChange : Obligations.ReservedBytesNeverChange := fun s t h => by
  obtain ⟨-, hcpu⟩ | ⟨-, hframe⟩ := step_cases h
  · exact cpuStep_keepsReserved (s := s.popEvent) hcpu
  · exact keepsReserved_of_keepsMemory (by rw [hframe]; rfl) fun a => by rw [hframe]; rfl

/-! ### The invariant -/

theorem instrAtPc_eq_some_iff : s.instrAtPc = some i ↔ s.fetchTrap = none ∧ decode? s.fetchWord = some i := by
  rw [State.instrAtPc]
  cases s.fetchTrap <;> simp

theorem State.Inv.fault_eq_none_of_live (hinv : s.Inv) (hlive : s.live) : s.fault = none := by
  have hfault : ¬s.fault.isSome = true := mt hinv.haltedIffFault.mpr hlive
  simpa using hfault

/-- A live state with no record. -/
theorem inv_of_live (hmem : Memory.wf s.cfg s.mem) (hlive : s.live) (hfault : s.fault = none)
    (hwait : s.status = .awaitKey → ∃ x, s.instrAtPc = some (.ldVxK x)) : s.Inv where
  memCanonical := hmem
  haltedIffFault := by simp [hlive, hfault]
  faultAtPc := by simp [hfault]
  faultBits := by simp [hfault]
  awaitsAtFx0A := hwait

theorem inv_raise {trap : Trap} {bits : Option Word} (hmem : Memory.wf s.cfg s.mem)
    (hbits : bits = if s.fetchTrap = none then some s.fetchWord else none) : (s.raise trap bits).Inv where
  memCanonical := hmem
  haltedIffFault := by simp
  faultAtPc := by simp
  faultBits := by
    obtain ⟨htrap, hword, -⟩ := instrAtPc_congr (s := s) (t := s.raise trap bits) rfl rfl rfl
    rw [htrap, hword, ← hbits]
    simp
  awaitsAtFx0A := by simp

/-- The invariant speaks of memory, the parameters, PC, STATUS and FAULT. -/
theorem State.Inv.congr (hinv : s.Inv) (hmem : t.mem = s.mem) (hcfg : t.cfg = s.cfg) (hpc : t.pc = s.pc)
    (hstatus : t.status = s.status) (hfault : t.fault = s.fault) : t.Inv := by
  obtain ⟨htrap, hword, hinstr⟩ := instrAtPc_congr hpc hmem hcfg
  exact
    { memCanonical := hcfg ▸ hmem ▸ hinv.memCanonical
      haltedIffFault := hstatus ▸ hfault ▸ hinv.haltedIffFault
      faultAtPc := hfault ▸ hpc ▸ hinv.faultAtPc
      faultBits := by rw [hfault, htrap, hword]; exact hinv.faultBits
      awaitsAtFx0A := by rw [hstatus, hinstr]; exact hinv.awaitsAtFx0A }

theorem Completed.memCanonical (hc : Completed i s t) (hmem : Memory.wf s.cfg s.mem) : Memory.wf t.cfg t.mem := by
  rw [hc.cfg]
  obtain h | ⟨bs, -, -, h⟩ := hc.mem
  · rwa [h]
  · rw [h]
    exact Memory.wf_setBytes hmem s.dataBase bs

theorem Completed.live (hc : Completed i s t) (hlive : s.live) : t.live := by
  obtain ⟨hstatus, -⟩ | ⟨x, -, hstatus | ⟨hstatus, -⟩⟩ := hc.status
  · rwa [State.live, hstatus]
  · simp [hstatus]
  · simp [hstatus]

/-- A completion that ends in AWAIT_KEY is an Fx0A that left PC: an instruction that keeps STATUS is not the Fx0A that a
state already waiting is at. -/
theorem Completed.awaitsAtFx0A (hc : Completed i s t) (hinv : s.Inv) (hat : s.instrAtPc = some i)
    (hwait : t.status = .awaitKey) : ∃ x, t.instrAtPc = some (.ldVxK x) := by
  obtain ⟨hstatus, hne⟩ | ⟨x, rfl, hrun | ⟨-, rfl⟩⟩ := hc.status
  · obtain ⟨x, hx⟩ := hinv.awaitsAtFx0A (hstatus.symm.trans hwait)
    exact absurd (Option.some.inj (hat.symm.trans hx)) (hne x)
  · simp [hrun] at hwait
  · exact ⟨x, hat⟩

theorem cpuStep_inv (hinv : s.Inv) (h : cpuStep s = .next t) : t.Inv := by
  obtain ⟨hlive, ⟨r, htrap, rfl⟩ | ⟨htrap, -, rfl⟩ | ⟨htrap, i, hdec, hexec⟩⟩ := cpuStep_cases h
  · exact inv_raise hinv.memCanonical (by simp [htrap])
  · exact inv_raise hinv.memCanonical (by simp [htrap])
  · obtain ⟨r, rfl⟩ | hc := exec_cases hexec
    · exact inv_raise hinv.memCanonical (by simp [htrap, decode?_eq_some_iff.mp hdec])
    · exact inv_of_live (hc.memCanonical hinv.memCanonical) (hc.live hlive)
        (hc.fault.trans (hinv.fault_eq_none_of_live hlive))
        (hc.awaitsAtFx0A hinv (instrAtPc_eq_some_iff.mpr ⟨htrap, hdec⟩))

theorem State.Inv.popEvent (hinv : s.Inv) : s.popEvent.Inv := hinv.congr rfl rfl rfl rfl rfl

theorem OnlyHostFields.inv (hframe : OnlyHostFields s t) (hinv : s.Inv) : t.Inv :=
  hinv.congr (by rw [hframe]) (by rw [hframe]) (by rw [hframe]) (by rw [hframe]) (by rw [hframe])

end

/-- Settles O52. -/
theorem stepKeepsTheInvariant : Obligations.StepKeepsTheInvariant := fun _ _ hinv h => by
  obtain ⟨-, hcpu⟩ | ⟨-, hframe⟩ := step_cases h
  · exact cpuStep_inv hinv.popEvent hcpu
  · exact OnlyHostFields.inv hframe hinv.popEvent

/-! ### Waiting for a key -/

section
variable {s t : State}

theorem exec_ldVxK_of_noEdge (x : Reg) (h : lowestSet? s.keyEdges = none) :
    exec (.ldVxK x) s = .next (s.setStatus .awaitKey) := by
  simp only [exec, execLdVxK, h]

theorem exec_ldVxK_of_edge (x : Reg) {k : Nat} (h : lowestSet? s.keyEdges = some k) :
    exec (.ldVxK x) s = .next (((s.setV x (BitVec.ofNat 8 k)).consumeKey k).setStatus .running).advance := by
  simp only [exec, execLdVxK, h]

theorem exec_ldVxK_live {x : Reg} (h : exec (.ldVxK x) s = .next t) : t.live := by
  cases hedge : lowestSet? s.keyEdges with
  | none => cases (exec_ldVxK_of_noEdge x hedge).symm.trans h; simp
  | some k => cases (exec_ldVxK_of_edge x hedge).symm.trans h; simp

/-- The instruction a waiting state steps is the Fx0A the invariant finds at PC. -/
theorem cpuStep_live_of_awaitKey (hinv : s.Inv) (hwait : s.status = .awaitKey) (h : cpuStep s = .next t) : t.live := by
  obtain ⟨x, hat⟩ := hinv.awaitsAtFx0A hwait
  obtain ⟨htrap, hdec⟩ := instrAtPc_eq_some_iff.mp hat
  have hlive : s.live := by simp [hwait]
  rw [cpuStep_of_decodeWord hlive htrap (decodeWord_eq_ok_iff.mpr (decode?_eq_some_iff.mp hdec))] at h
  exact exec_ldVxK_live h

end

/-- Settles O53. -/
theorem waitingForAKeyNeverFaults : Obligations.WaitingForAKeyNeverFaults := fun s t hinv hwait h => by
  have hlive : t.live := by
    obtain ⟨-, hcpu⟩ | ⟨-, hframe⟩ := step_cases h
    · exact cpuStep_live_of_awaitKey hinv.popEvent hwait hcpu
    · rw [hframe]
      simp [hwait]
  exact ⟨hlive, (stepKeepsTheInvariant s t hinv h).fault_eq_none_of_live hlive⟩

/-! ### The invariant at the start -/

/-- A running machine with no record and a canonical memory, whatever the rest. -/
theorem inv_loadProgram_launch (l : Launch) :
    ((State.launch l.cfg l.resetV l.resetI l.resetStack).loadProgram l.program).Inv :=
  inv_of_live (Memory.wf_setBytes Memory.wf_nil programBase l.program) (fun h => nomatch h) rfl (fun h => nomatch h)

/-- Settles O50: the state after reset is a launch of the empty program. -/
theorem invariantAtReset : Obligations.InvariantAtReset :=
  inv_loadProgram_launch ⟨defaultConfig, defaultResetV, defaultResetI, defaultResetStack, []⟩

theorem boot_of_fits {l : Launch} (hfont : l.cfg.wellFormed) (hprogram : l.programFits) :
    boot l = .ok ((State.launch l.cfg l.resetV l.resetI l.resetStack).loadProgram l.program) := by
  rw [boot, if_neg (not_not_intro hfont), if_neg (not_not_intro hprogram)]

theorem boot_of_font {l : Launch} (hfont : ¬l.cfg.wellFormed) : boot l = .error (.fontDoesNotFit l.cfg.fontBase) := by
  rw [boot, if_pos hfont]

theorem boot_of_long {l : Launch} (hfont : l.cfg.wellFormed) (hprogram : ¬l.programFits) :
    boot l = .error (.loadError l.program.length) := by
  rw [boot, if_neg (not_not_intro hfont), if_pos hprogram]

/-- Settles O51. -/
theorem invariantAtEveryLaunch : Obligations.InvariantAtEveryLaunch := fun l s h => by
  by_cases hfont : l.cfg.wellFormed
  · by_cases hprogram : l.programFits
    · cases (boot_of_fits hfont hprogram).symm.trans h
      exact inv_loadProgram_launch l
    · cases (boot_of_long hfont hprogram).symm.trans h
  · cases (boot_of_font hfont).symm.trans h

/-! ### Reset and load -/

/-- Settles O55. -/
theorem launchRefusesWhatDoesNotFit : Obligations.LaunchRefusesWhatDoesNotFit := fun _ =>
  ⟨fun hfont hlong => boot_of_long hfont (Nat.not_le_of_lt hlong), fun hfont => boot_of_font (Nat.not_le_of_lt hfont)⟩

/-- A byte of memory after reset (R42). -/
theorem resetByte_eq (c : Config) (a : Nat) :
    resetByte c a =
      if c.fontBase ≤ a ∧ a < c.fontBase + 80 then c.fontData.toList.getD (a - c.fontBase) 0x00#8 else 0x00#8 := by
  unfold resetByte
  split
  case isTrue hfont =>
    rw [List.getD_eq_getElem _ _ (by simp; omega)]
    simp
  case isFalse => rfl

/-- A byte after the load: the program's inside its range, the reset content outside. -/
theorem readByte_loadProgram_launch {l : Launch} (hprogram : l.programFits) (a : Nat) :
    ((State.launch l.cfg l.resetV l.resetI l.resetStack).loadProgram l.program).readByte a =
      if 0x200 ≤ a ∧ a < 0x200 + l.program.length then l.program.getD (a - 0x200) 0x00#8 else resetByte l.cfg a := by
  rw [State.loadProgram]
  split
  case isTrue hin =>
    obtain ⟨j, rfl⟩ := Nat.exists_eq_add_of_le hin.1
    have hj : j < l.program.length := by omega
    have hfit : 0x200 + l.program.length ≤ memSize := Nat.add_le_of_le_sub' (by decide) hprogram
    rw [State.readByte_writeBytes _ Memory.wf_nil hfit hj, Nat.add_sub_cancel_left, List.getD_eq_getElem _ _ hj]
  case isFalse hout =>
    rw [State.readByte_writeBytes_outside _ _ (by simp only [programBase]; omega)]
    rfl

/-- Settles O54. -/
theorem launchGivesTheResetState : Obligations.LaunchGivesTheResetState := fun l hfont hprogram => by
  refine ⟨_, boot_of_fits hfont hprogram, rfl, rfl, rfl, rfl, pixel_blank, rfl, rfl, rfl, rfl, rfl, rfl, rfl, rfl,
    fun a _ => ?_⟩
  rw [readByte_loadProgram_launch hprogram, resetByte_eq]

end Sys2Proof.Machine
end

section
/-! O14, O15: nested calls and the offset jump (spec/40_control_flow.md R71, R73, R74). -/

namespace Sys2Proof.Machine

/-! ### The offset jump -/

theorem exec_jpV0 (nnn : Addr12) (s : State) : exec (.jpV0 nnn) s = .next (s.setPc (s.offsetTarget nnn)) := rfl

@[simp] theorem toNat_zextByte (b : Byte) : (zextByte b).toNat = b.toNat := BitVec.toNat_setWidth_of_le (by decide)

/-- Twelve and eight bits do not reach 2^16. -/
theorem toNat_offsetTarget (s : State) (nnn : Addr12) :
    (s.offsetTarget nnn).toNat = nnn.toNat + (s.getV 0x0#4).toNat := by
  have hnnn := nnn.isLt
  have hv := (s.getV 0x0#4).isLt
  rw [State.offsetTarget, BitVec.toNat_add, toNat_zextAddr, toNat_zextByte]
  omega

/-- Settles O15. -/
theorem offsetJumpAddsV0 : Obligations.OffsetJumpAddsV0 := fun s nnn => by
  refine ⟨_, exec_jpV0 nnn s, toNat_offsetTarget s nnn, ?_, onlyPc_setPc s _⟩
  have hnnn := nnn.isLt
  have hv := (s.getV 0x0#4).isLt
  rw [State.setPc_pc, toNat_offsetTarget]
  omega

/-! ### Runs of calls and of returns -/

theorem execList_cons_of_next {i : Instr} {s t : State} (h : exec i s = .next t) (is : List Instr) :
    execList (i :: is) s = execList is t := by
  rw [execList, h]

/-- Calls, one after the other, write the slots from SP on alone, the first of them with the address after the first
call. -/
theorem execList_calls (targets : List Addr12) (s : State) (hroom : s.sp.val + targets.length ≤ 16) :
    ∃ t, execList (targets.map .call) s = .next t ∧ t.sp.val = s.sp.val + targets.length ∧
      (targets ≠ [] → t.stack[s.sp.val]? = some (s.pc + 2#16)) ∧ (∀ j, j < s.sp.val → t.stack[j]? = s.stack[j]?) ∧
      t = { s with pc := t.pc, sp := t.sp, stack := t.stack } := by
  induction targets generalizing s with
  | nil => exact ⟨s, rfl, rfl, fun h => absurd rfl h, fun _ _ => rfl, rfl⟩
  | cons nnn targets ih =>
    rw [List.length_cons] at hroom
    obtain ⟨s', hpush⟩ := State.push_isSome (s.pc + 2#16) (show s.sp.val < 16 by omega)
    obtain ⟨-, hsp', hslot', hbelow', hframe'⟩ := State.push_cases hpush
    obtain ⟨t, ht, hsp, -, hbelow, hframe⟩ := ih (s'.setPc (zextAddr nnn)) (by rw [State.setPc_sp]; omega)
    rw [State.setPc_sp] at hsp hbelow
    refine ⟨t, ?_, ?_, fun _ => ?_, fun j hj => ?_, hframe.trans (by rw [hframe']; rfl)⟩
    · rw [List.map_cons, execList_cons_of_next (exec_call_of_push hpush), ht]
    · rw [hsp, hsp', List.length_cons]
      omega
    · exact (hbelow _ (by omega)).trans hslot'
    · exact (hbelow j (by omega)).trans (hbelow' j (by omega))

/-- Returns, one after the other, leave the stack slots; the last of them goes to the lowest one popped. -/
theorem execList_rets (n : Nat) (s : State) (hheld : n ≤ s.sp.val) :
    ∃ u, execList (List.replicate n .ret) s = .next u ∧ u.sp.val = s.sp.val - n ∧
      (0 < n → s.stack[s.sp.val - n]? = some u.pc) ∧ u = { s with pc := u.pc, sp := u.sp } := by
  induction n generalizing s with
  | zero => exact ⟨s, rfl, rfl, fun h => absurd h (Nat.lt_irrefl 0), rfl⟩
  | succ n ih =>
    obtain ⟨v, s', hpop⟩ := State.pop_isSome (show 0 < s.sp.val by omega)
    obtain ⟨-, hsp', hslot', hframe'⟩ := State.pop_cases hpop
    have hstack : s'.stack = s.stack := by rw [hframe']
    obtain ⟨u, hu, hsp, hslot, hframe⟩ := ih (s'.setPc v) (by rw [State.setPc_sp]; omega)
    rw [State.setPc_sp, hsp', Nat.sub_sub, Nat.add_comm 1 n] at hsp hslot
    refine ⟨u, ?_, hsp, fun _ => ?_, hframe.trans (by rw [hframe']; rfl)⟩
    · rw [List.replicate_succ, execList_cons_of_next (exec_ret_of_pop hpop), hu]
    · obtain rfl | hpos := Nat.eq_zero_or_pos n
      · cases hu
        exact hslot'
      · exact hstack ▸ hslot hpos

/-- Settles O14. -/
theorem nestedCallsReturnInOrder : Obligations.NestedCallsReturnInOrder := fun targets s hroom => by
  obtain ⟨t, ht, hsp, hfirst, hbelow, hframe⟩ := execList_calls targets s hroom
  obtain ⟨u, hu, hspu, hslot, hframeu⟩ := execList_rets targets.length t (by omega)
  rw [hsp, Nat.add_sub_cancel] at hspu hslot
  have hstack : u.stack = t.stack := by rw [hframeu]
  have hspu' : u.sp = s.sp := Fin.ext hspu
  refine ⟨t, ht, hsp, fun nnn => exec_call_of_full nnn, u, hu, hspu', fun hne => ?_, fun j hj => ?_, ?_⟩
  · exact Option.some.inj ((hslot (List.length_pos_iff.mpr hne)).symm.trans (hfirst hne))
  · rw [hstack, hbelow j hj]
  · rw [hframeu, hframe, hspu']

end Sys2Proof.Machine
end

section
/-! O18, O20, O21, O22, O23, O24: the ALU (spec/41_alu.md). A write of one register and a write of a result and its flag
are the two shapes; each instruction adds what its value is. -/

namespace Sys2Proof.Machine

section
variable {i : Instr} {s : State} {x : Reg}

theorem exec_setV {b : Byte} (h : exec i s = .next (s.setV x b).advance) :
    ∃ t, exec i s = .next t ∧ t.getV x = b ∧ OnlyRegs [x] s t :=
  ⟨_, h, State.getV_setV_self s x b, onlyRegs_setV_advance s x b⟩

theorem onlyRegs_setResult_advance (s : State) (x : Reg) (b : Byte) (flag : Bool) :
    OnlyRegs [x, VF] s (s.setResult x b flag).advance := by
  refine ⟨fun r hr => ?_, fun _ => rfl, rfl, rfl⟩
  obtain ⟨hx, hvf⟩ : r ≠ x ∧ r ≠ VF := by simpa using hr
  rw [State.advance_eq, State.setPc_getV, State.getV_setResult, if_neg hvf, if_neg hx]

theorem exec_setResult {b : Byte} {flag : Bool} (h : exec i s = .next (s.setResult x b flag).advance) :
    ∃ t, exec i s = .next t ∧ (x ≠ VF → t.getV x = b) ∧ t.getV VF = flagByte flag ∧ OnlyRegs [x, VF] s t := by
  refine ⟨_, h, fun hx => ?_, ?_, onlyRegs_setResult_advance s x b flag⟩
  · rw [State.advance_eq, State.setPc_getV, State.getV_setResult, if_neg hx, if_pos rfl]
  · rw [State.advance_eq, State.setPc_getV, State.getV_setResult, if_pos rfl]

end

/-- Settles O18. -/
theorem loadWritesVx : Obligations.LoadWritesVx := fun _ _ =>
  ⟨fun _ => ⟨rfl, exec_setV rfl⟩, fun _ => ⟨rfl, exec_setV rfl⟩⟩

/-- Settles O20. -/
theorem logicalOperationsWithoutFlag : Obligations.LogicalOperationsWithoutFlag := fun s x y => by
  obtain ⟨tor, hor, hvor, hframeor⟩ := exec_setV (i := .orReg x y) (s := s) rfl
  obtain ⟨tand, hand, hvand, hframeand⟩ := exec_setV (i := .andReg x y) (s := s) rfl
  obtain ⟨txor, hxor, hvxor, hframexor⟩ := exec_setV (i := .xorReg x y) (s := s) rfl
  exact ⟨⟨tor, hor, fun k _ => by rw [hvor, BitVec.getLsbD_or], hframeor⟩,
    ⟨tand, hand, fun k _ => by rw [hvand, BitVec.getLsbD_and], hframeand⟩,
    ⟨txor, hxor, fun k _ => by rw [hvxor, BitVec.getLsbD_xor], hframexor⟩⟩

/-! ### Flags -/

theorem flagByte_decide (p : Prop) [Decidable p] : flagByte (decide p) = if p then 0x01#8 else 0x00#8 := by
  simp only [flagByte, decide_eq_true_eq]

/-- Settles O21. -/
theorem addSetsCarry : Obligations.AddSetsCarry := fun s x y => by
  obtain ⟨t, ht, hv, hflag, hframe⟩ := exec_setResult (i := .addReg x y) (s := s) rfl
  exact ⟨t, ht, fun hx => by rw [hv hx, BitVec.toNat_add], by rw [hflag, carryOut, flagByte_decide], hframe⟩

theorem toNat_sub_byte (a b : Byte) : (a - b).toNat = (a.toNat + 256 - b.toNat) % 256 := by bv_omega

/-- Settles O22. -/
theorem subtractionsSetNoBorrow : Obligations.SubtractionsSetNoBorrow := fun s x y => by
  obtain ⟨t, ht, hv, hflag, hframe⟩ := exec_setResult (i := .subReg x y) (s := s) rfl
  obtain ⟨t', ht', hv', hflag', hframe'⟩ := exec_setResult (i := .subnReg x y) (s := s) rfl
  exact ⟨⟨t, ht, fun hx => by rw [hv hx, toNat_sub_byte], by rw [hflag, noBorrow, flagByte_decide], hframe⟩,
    ⟨t', ht', fun hx => by rw [hv' hx, toNat_sub_byte], by rw [hflag', noBorrow, flagByte_decide], hframe'⟩⟩

/-- A flag that is bit k of a byte, as a number. -/
theorem toNat_flagByte_getLsbD (b : Byte) (k : Nat) : (flagByte (b.getLsbD k)).toNat = b.toNat / 2 ^ k % 2 := by
  rw [BitVec.getLsbD, Nat.testBit_eq_decide_div_mod_eq, flagByte_decide]
  split <;> simp <;> omega

theorem toNat_shiftedOutRight (src : Byte) : (flagByte (shiftedOutRight src)).toNat = src.toNat % 2 := by
  rw [shiftedOutRight, toNat_flagByte_getLsbD, pow_zero, Nat.div_one]

theorem toNat_shiftedOutLeft (src : Byte) : (flagByte (shiftedOutLeft src)).toNat = src.toNat / 128 := by
  have hsrc := src.isLt
  rw [shiftedOutLeft, toNat_flagByte_getLsbD]
  omega

theorem shiftSource_eq {s : State} {x y : Reg} {src : Byte}
    (h : s.cfg.shiftMode = .vxOnly ∧ src = s.getV x ∨ s.cfg.shiftMode = .vySource ∧ src = s.getV y) :
    s.shiftSource x y = src := by
  obtain ⟨hmode, rfl⟩ | ⟨hmode, rfl⟩ := h <;> rw [State.shiftSource, hmode]

/-- Settles O23. -/
theorem shiftsMoveOneBitOut : Obligations.ShiftsMoveOneBitOut := fun s x y src h => by
  obtain ⟨t, ht, hv, hflag, hframe⟩ := exec_setResult (i := .shrReg x y) (s := s) rfl
  obtain ⟨t', ht', hv', hflag', hframe'⟩ := exec_setResult (i := .shlReg x y) (s := s) rfl
  rw [shiftSource_eq h] at hv hflag hv' hflag'
  refine ⟨⟨t, ht, fun hx => ?_, by rw [hflag, toNat_shiftedOutRight], hframe⟩,
    ⟨t', ht', fun hx => ?_, by rw [hflag', toNat_shiftedOutLeft], hframe'⟩⟩
  · rw [hv hx, BitVec.toNat_ushiftRight, Nat.shiftRight_one]
  · rw [hv' hx, BitVec.toNat_shiftLeft, Nat.shiftLeft_eq, pow_one]

theorem exec_rnd (x : Reg) (kk : Byte) (s : State) :
    exec (.rnd x kk) s = .next (s.setV x (Config.rnd s.draws &&& kk)).countDraw.advance := rfl

/-- Settles O24. -/
theorem randomByteUnderMask : Obligations.RandomByteUnderMask := fun s x kk => by
  refine ⟨rfl, _, exec_rnd x kk s, ?_, rfl, fun r hr => ?_, fun _ => rfl, rfl, rfl⟩
  · rw [State.advance_eq, State.setPc_getV, State.countDraw_getV, State.getV_setV_self]
  · rw [State.advance_eq, State.setPc_getV, State.countDraw_getV, State.getV_setV, if_neg (List.ne_of_not_mem_cons hr)]

end Sys2Proof.Machine
end

section
/-! O26, O27, O28, O29, O30, O31, O32: the index register, loads and stores (spec/42_index_memory.md). A guarded
instruction is its check and its body; the checks are read off Laws/Checks.lean. -/

namespace Sys2Proof.Machine

/-! ### What the instructions are -/

/-- What Dxyn draws: the display after, and whether a pixel went from on to off. -/
def State.drawing (s : State) (x y : Reg) (n : Nibble) : Display × Bool :=
  drawSprite (s.drawColumn x) (s.drawRowIndex y) (s.readBytes s.dataBase n.toNat) s.disp

section
variable (s : State) (x : Reg)

theorem exec_addI : exec (.addI x) s = .next (s.setI (s.i + zextByte (s.getV x))).advance := rfl

theorem exec_ldF :
    exec (.ldF x) s =
      guarded (s.digitTrap x) (encode (.ldF x)) s (.next (s.setI (glyphAddr s.cfg (s.getV x))).advance) := rfl

theorem exec_skp :
    exec (.skp x) s =
      guarded (s.digitTrap x) (encode (.skp x)) s (.next (s.skipIf (s.keyPressed (s.getV x)))) := rfl

theorem exec_sknp :
    exec (.sknp x) s =
      guarded (s.digitTrap x) (encode (.sknp x)) s (.next (s.skipIf (!s.keyPressed (s.getV x)))) := rfl

theorem exec_ldB :
    exec (.ldB x) s =
      guarded (writeTrap s.cfg s.dataBase 3) (encode (.ldB x)) s
        (.next (s.writeBytes s.dataBase (bcdDigits (s.getV x))).advance) := rfl

theorem exec_stRegs :
    exec (.stRegs x) s =
      guarded (writeTrap s.cfg s.dataBase (regCount x)) (encode (.stRegs x)) s
        (.next ((s.writeBytes s.dataBase (s.lowRegs x)).postIncrement x).advance) := rfl

theorem exec_ldRegs :
    exec (.ldRegs x) s =
      guarded (readTrap s.dataBase (regCount x)) (encode (.ldRegs x)) s
        (.next ((s.setRegs (loadRegs 0 (s.readBytes s.dataBase (regCount x)) s.v)).postIncrement x).advance) := rfl

theorem exec_drw (y : Reg) (n : Nibble) :
    exec (.drw x y n) s =
      guarded (readTrap s.dataBase n.toNat) (encode (.drw x y n)) s
        (.next ((s.drawn (s.drawing x y n).1).setV VF (flagByte (s.drawing x y n).2)).advance) := rfl

end

/-! ### The checks -/

section
variable {s : State} {x : Reg} {c : Config} {base n : Nat}

theorem digitTrap_of_digit (h : (s.getV x).toNat ≤ 0xF) : s.digitTrap x = none := by
  rw [digitTrap_eq, if_neg (Nat.not_lt.mpr h)]

theorem digitTrap_of_above (h : 0xF < (s.getV x).toNat) :
    s.digitTrap x = some ⟨.operandOutOfRange, .value (s.getV x)⟩ := by
  rw [digitTrap_eq, if_pos h]

theorem readTrap_of_beyond (hn : 0 < n) (h : 0x1000 < base + n) :
    readTrap base n = some ⟨.memoryOutOfRange, .addr (firstBeyond base)⟩ := by
  rw [readTrap_eq, if_pos ⟨hn, h⟩]

theorem writeTrap_of_beyond (hn : 0 < n) (h : 0x1000 < base + n) :
    writeTrap c base n = some ⟨.memoryOutOfRange, .addr (firstBeyond base)⟩ := by
  rw [writeTrap_eq, if_pos ⟨hn, h⟩]

theorem writeTrap_of_reserved (hpolicy : c.lowWritePolicy = .fault) (hn : 0 < n) (hfit : base + n ≤ 0x1000)
    (h : base < 0x200) : writeTrap c base n = some ⟨.reservedWrite, .addr base⟩ := by
  rw [writeTrap_eq, if_neg (by omega), if_pos ⟨hpolicy, hn, h⟩]

theorem regCount_pos (x : Reg) : 0 < regCount x := Nat.succ_pos _

theorem regCount_le (x : Reg) : regCount x ≤ 16 := x.isLt

end

/-! ### The index register -/

/-- Settles O26. -/
theorem addToIndexWraps : Obligations.AddToIndexWraps := fun s x =>
  ⟨_, exec_addI s x, by rw [State.advance_eq, State.setPc_i, State.setI_i, BitVec.toNat_add, toNat_zextByte],
    setI_advance_frame s _⟩

/-- The highest glyph of the highest font place is below 2^16. -/
theorem toNat_glyphAddr {c : Config} {d : Byte} (hfont : c.fontBase ≤ 0x1B0) (hd : d.toNat ≤ 0xF) :
    (glyphAddr c d).toNat = c.fontBase + 5 * d.toNat := by
  rw [glyphAddr, BitVec.toNat_ofNat]
  omega

/-- Settles O27. -/
theorem indexPointsAtGlyph : Obligations.IndexPointsAtGlyph := fun s x hfont hdigit => by
  rw [exec_ldF, digitTrap_of_digit hdigit, guarded_none]
  exact ⟨_, rfl, toNat_glyphAddr hfont hdigit, setI_advance_frame s _⟩

/-- Settles O28. -/
theorem operandAboveFFaults : Obligations.OperandAboveFFaults := fun s x h => by
  rw [exec_ldF, exec_skp, exec_sknp, digitTrap_of_above h]
  exact ⟨rfl, rfl, rfl⟩

/-! ### Stores and loads -/

theorem toNat_postIncrement_i (s : State) (x : Reg) :
    (s.postIncrement x).i.toNat =
      if s.cfg.loadStoreIncrementsI then (s.i.toNat + x.toNat + 1) % 65536 else s.i.toNat := by
  have hx := regCount_le x
  rw [State.postIncrement_eq, State.setI_i]
  split
  · rw [BitVec.toNat_add, BitVec.toNat_ofNat, Nat.mod_eq_of_lt (a := regCount x) (by omega)]
    rfl
  · rfl

/-- A number that is no larger than some byte is not cut to 8 bits. -/
theorem toNat_ofNat_of_le_byte {a : Nat} (v : Byte) (h : a ≤ v.toNat) : (BitVec.ofNat 8 a).toNat = a :=
  (BitVec.toNat_ofNat a 8).trans (Nat.mod_eq_of_lt (Nat.lt_of_le_of_lt h v.isLt))

/-- Settles O29. -/
theorem storeDecimalDigits : Obligations.StoreDecimalDigits := fun s x hmem hfit hpolicy => by
  have htrap : writeTrap s.cfg s.dataBase 3 = none := (writeTrap_eq_none (by decide)).mpr ⟨by omega, hpolicy⟩
  have hfit' : s.dataBase + (bcdDigits (s.getV x)).length ≤ memSize := by
    simp only [bcdDigits, List.length_cons, List.length_nil, memSize]
    omega
  have hread : ∀ j (hj : j < 3), ((s.writeBytes s.dataBase (bcdDigits (s.getV x))).readByte (s.dataBase + j)) =
      (bcdDigits (s.getV x))[j]'hj := fun j hj => State.readByte_writeBytes s hmem hfit' hj
  rw [exec_ldB, htrap, guarded_none]
  refine ⟨_, rfl, ?_, ?_, ?_, fun _ => State.readByte_writeBytes_outside s (bcdDigits (s.getV x)), rfl, rfl⟩
  · exact (congrArg BitVec.toNat (hread 0 (by decide))).trans (toNat_ofNat_of_le_byte (s.getV x) (Nat.div_le_self _ _))
  · refine (congrArg BitVec.toNat (hread 1 (by decide))).trans (toNat_ofNat_of_le_byte (s.getV x) ?_)
    exact (Nat.mod_le _ _).trans (Nat.div_le_self _ _)
  · exact (congrArg BitVec.toNat (hread 2 (by decide))).trans (toNat_ofNat_of_le_byte (s.getV x) (Nat.mod_le _ _))

/-- Settles O30. -/
theorem storeRegistersToMemory : Obligations.StoreRegistersToMemory := fun s x hmem hfit hpolicy => by
  have hlength := lowRegs_length s x
  have htrap : writeTrap s.cfg s.dataBase (regCount x) = none :=
    (writeTrap_eq_none (regCount_pos x)).mpr ⟨by rw [regCount]; omega, hpolicy⟩
  rw [exec_stRegs, htrap, guarded_none, State.postIncrement_eq]
  refine ⟨_, rfl, fun r hr => ?_, fun a ha => ?_, ?_, rfl, rfl⟩
  · have hr' : r.toNat < (s.lowRegs x).length := by omega
    refine (State.readByte_writeBytes s hmem ?_ hr').trans (lowRegs_getElem s x r hr')
    simp only [memSize]
    omega
  · exact State.readByte_writeBytes_outside s (s.lowRegs x) (by omega)
  · rw [← State.postIncrement_eq]
    exact toNat_postIncrement_i _ x

theorem getV_setRegs_loadRegs (s : State) (bs : List Byte) (r : Reg) :
    (s.setRegs (loadRegs 0 bs s.v)).getV r = if h : r.toNat < bs.length then bs[r.toNat] else s.getV r := by
  rw [State.getV]
  simp only [State.setRegs_v, loadRegs_getElem, Nat.zero_le, true_and, Nat.sub_zero]
  rfl

/-- Settles O31. -/
theorem loadRegistersFromMemory : Obligations.LoadRegistersFromMemory := fun s x hfit => by
  have htrap : readTrap s.dataBase (regCount x) = none := readTrap_eq_none.mpr (.inr (by rw [regCount]; omega))
  rw [exec_ldRegs, htrap, guarded_none, State.postIncrement_eq]
  refine ⟨_, rfl, fun r => ?_, fun _ => rfl, ?_, rfl, rfl⟩
  · rw [State.advance_eq, State.setPc_getV, State.setI_getV, getV_setRegs_loadRegs]
    simp only [readBytes_length, readBytes_getElem, regCount, Nat.lt_succ_iff, dite_eq_ite]
  · rw [← State.postIncrement_eq]
    exact toNat_postIncrement_i _ x

/-- Settles O32. -/
theorem dataAccessFaults : Obligations.DataAccessFaults := fun s x y n => by
  have hx := regCount_le x
  rw [exec_ldB, exec_stRegs, exec_ldRegs, exec_drw]
  refine ⟨fun h => ?_, fun h => ?_, fun hn h => ?_, fun hpolicy h => ?_⟩
  · rw [writeTrap_of_beyond (by decide) (by omega)]
    rfl
  · have hbeyond : 0x1000 < s.dataBase + regCount x := by rw [regCount]; omega
    rw [writeTrap_of_beyond (regCount_pos x) hbeyond, readTrap_of_beyond (regCount_pos x) hbeyond]
    exact ⟨rfl, rfl⟩
  · rw [readTrap_of_beyond hn (by omega)]
    rfl
  · rw [writeTrap_of_reserved hpolicy (by decide) (by omega) h,
      writeTrap_of_reserved hpolicy (regCount_pos x) (by omega) h]
    exact ⟨rfl, rfl⟩

end Sys2Proof.Machine
end

section
/-! O33, O34, O35: the display (spec/43_display.md). What a draw does to the pixels and the flag is
`drawSprite_draws`. -/

namespace Sys2Proof.Machine

theorem exec_cls (s : State) : exec .cls s = .next (s.drawn Display.blank).advance := rfl

/-- Settles O33. -/
theorem clearTurnsEveryPixelOff : Obligations.ClearTurnsEveryPixelOff := fun s =>
  ⟨_, exec_cls s, pixel_blank, rfl, fun _ => rfl, rfl, rfl⟩

theorem drawing_draws (s : State) (x y : Reg) (n : Nibble) :
    Draws (s.spriteBit x y n) (s.disp, false) (s.drawing x y n) :=
  drawSprite_draws s s.dataBase n.toNat (Nat.le_of_lt_succ n.isLt) (Nat.mod_lt _ (by decide))
    (Nat.mod_lt _ (by decide)) s.disp

theorem flagByte_eq_one_iff (b : Bool) : flagByte b = 0x01#8 ↔ b = true := by cases b <;> decide

theorem flagByte_eq_one_or_zero (b : Bool) : flagByte b = 0x01#8 ∨ flagByte b = 0x00#8 := by cases b <;> decide

/-- Settles O34. -/
theorem drawTogglesTheSpritesPixels : Obligations.DrawTogglesTheSpritesPixels := fun s x y n hfit => by
  have htrap : readTrap s.dataBase n.toNat = none := readTrap_eq_none.mpr (by omega)
  obtain ⟨hpixels, hcollision⟩ := drawing_draws s x y n
  rw [exec_drw, htrap, guarded_none]
  refine ⟨_, rfl, hpixels, ?_, ?_, rfl, fun r hr => ?_, fun _ => rfl, rfl, rfl⟩
  · rw [State.advance_eq, State.setPc_getV, State.getV_setV_self]
    exact flagByte_eq_one_or_zero _
  · rw [State.advance_eq, State.setPc_getV, State.getV_setV_self, flagByte_eq_one_iff, hcollision]
    simp
  · rw [State.advance_eq, State.setPc_getV, State.getV_setV, if_neg (List.ne_of_not_mem_cons hr), State.drawn_getV]

/-- The pixels of a sprite are those of its bytes and its place. -/
theorem spriteBit_congr {s s' : State} {x y x' y' : Reg} {n : Nibble}
    (hx : (s'.getV x').toNat % 64 = (s.getV x).toNat % 64) (hy : (s'.getV y').toNat % 32 = (s.getV y).toNat % 32)
    (hbytes : ∀ j, j < n.toNat → s'.readByte (s'.dataBase + j) = s.readByte (s.dataBase + j)) :
    s'.spriteBit x' y' n = s.spriteBit x y n := by
  funext r c
  simp only [State.spriteBit, spriteBit, hx, hy]
  by_cases hrow : (r.val + 32 - (s.getV y).toNat % 32) % 32 < n.toNat
  · rw [← State.dataBase, ← State.dataBase, hbytes _ hrow]
  · simp only [hrow, decide_false, Bool.false_and]

/-- Settles O35: the second draw toggles the same pixels back, and it finds on exactly what was off before the first. -/
theorem drawingTwiceRestoresTheDisplay : Obligations.DrawingTwiceRestoresTheDisplay :=
  fun s t s' x y x' y' n hfit hfit' hdraw hdisp hx hy hbytes => by
  obtain ⟨t', ht', hpixels, -⟩ := drawTogglesTheSpritesPixels s x y n hfit
  cases ht'.symm.trans hdraw
  obtain ⟨u, hu, hpixels', -, hflag, -⟩ := drawTogglesTheSpritesPixels s' x' y' n hfit'
  simp only [spriteBit_congr hx hy hbytes, hdisp, hpixels] at hpixels' hflag
  refine ⟨u, hu, display_ext fun r c => ?_, hflag.trans ?_⟩
  · rw [hpixels', Bool.bne_assoc, bne_self_eq_false, Bool.bne_false]
  · refine exists_congr fun r => exists_congr fun c => and_congr_right fun hbit => ?_
    rw [hbit, Bool.bne_true, Bool.not_eq_true']

end Sys2Proof.Machine
end

section
/-! O36, O40, O41, O42: the timers' instructions and the keypad's (spec/44_timers_keys.md). -/

namespace Sys2Proof.Machine

theorem exec_ldDTVx (x : Reg) (s : State) : exec (.ldDTVx x) s = .next (s.setDt (s.getV x)).advance := rfl

theorem exec_ldSTVx (x : Reg) (s : State) : exec (.ldSTVx x) s = .next (s.setSt (s.getV x)).advance := rfl

/-- Settles O36. -/
theorem timerReadsAndWrites : Obligations.TimerReadsAndWrites := fun s x =>
  ⟨⟨rfl, exec_setV rfl⟩, ⟨rfl, _, exec_ldDTVx x s, rfl, fun _ => rfl, rfl, rfl⟩,
    rfl, _, exec_ldSTVx x s, rfl, bne_iff_ne, fun _ => rfl, rfl, rfl⟩

/-! ### Key tests -/

/-- Settles O40. -/
theorem keyTestsSkipOnTheLevel : Obligations.KeyTestsSkipOnTheLevel := fun s x hkey => by
  have htrap := digitTrap_of_digit hkey
  refine ⟨exec_skip (taken := s.keyPressed (s.getV x)) ?_ Iff.rfl,
    exec_skip (taken := !s.keyPressed (s.getV x)) ?_ (by rw [Bool.not_eq_true', State.keyPressed])⟩
  · rw [exec_skp, htrap, guarded_none]
  · rw [exec_sknp, htrap, guarded_none]

/-! ### Waiting for a key -/

theorem keyEdges_eq_zero_iff (s : State) :
    s.keyEdges = 0#16 ↔ ∀ k, k < 16 → s.keys.getLsbD k = true → s.keysPrev.getLsbD k = true := by
  rw [← lowestSet?_eq_none, lowestSet?, List.find?_eq_none]
  refine forall_congr' fun k => ?_
  rw [List.mem_range]
  refine imp_congr_right fun hk => ?_
  rw [keyEdges_getLsbD s hk]
  cases s.keys.getLsbD k <;> cases s.keysPrev.getLsbD k <;> decide

/-- Settles O41: STATUS has no part in the edges. -/
theorem keyWaitWithoutEdgeWaits : Obligations.KeyWaitWithoutEdgeWaits := fun s x h => by
  have hnone : lowestSet? s.keyEdges = none := lowestSet?_eq_none.mpr ((keyEdges_eq_zero_iff s).mpr h)
  exact ⟨exec_ldVxK_of_noEdge x hnone, exec_ldVxK_of_noEdge (s := s.setStatus .awaitKey) x hnone⟩

/-- The latch after a press is consumed. -/
theorem getLsbD_consumeKey_keysPrev (s : State) {j k : Nat} (hj : j < 16) :
    (s.consumeKey k).keysPrev.getLsbD j = (s.keysPrev.getLsbD j || decide (j = k)) := by
  have hbit : (1#16 <<< k).getLsbD j = decide (j = k) := by
    rw [← BitVec.twoPow_eq, BitVec.getLsbD_twoPow]
    by_cases hjk : j = k
    · simp [← hjk, hj]
    · simp [hjk, Ne.symm hjk]
  rw [State.consumeKey_eq, State.setKeysPrev_keysPrev, BitVec.getLsbD_or, hbit]

/-- Settles O42. -/
theorem keyWaitStoresTheLowestEdge : Obligations.KeyWaitStoresTheLowestEdge := fun s x ⟨k₀, hk₀, hnow₀, hprev₀⟩ => by
  have hedges : s.keyEdges ≠ 0#16 := fun h => by
    simpa [hprev₀] using (keyEdges_eq_zero_iff s).mp h k₀ hk₀ hnow₀
  obtain ⟨k, hsome⟩ := lowestSet?_isSome hedges
  obtain ⟨hk, hedge, hlower⟩ := lowestSet?_eq_some hsome
  obtain ⟨hnow, hprev⟩ : s.keys.getLsbD k = true ∧ s.keysPrev.getLsbD k = false := by
    simpa [keyEdges_getLsbD s hk] using hedge
  refine ⟨_, k, exec_ldVxK_of_edge x hsome, hk, hnow, hprev, fun j hj hjnow => ?_, ?_,
    fun j hj => getLsbD_consumeKey_keysPrev (s.setV x (BitVec.ofNat 8 k)) hj, rfl, fun r hr => ?_, fun _ => rfl, rfl,
    rfl⟩
  · simpa [keyEdges_getLsbD s (hj.trans hk), hjnow] using hlower j hj
  · rw [State.advance_eq, State.setPc_getV, State.setStatus_getV, State.consumeKey_eq, State.setKeysPrev_getV,
      State.getV_setV_self, BitVec.toNat_ofNat]
    omega
  · rw [State.advance_eq, State.setPc_getV, State.setStatus_getV, State.consumeKey_eq, State.setKeysPrev_getV,
      State.getV_setV, if_neg (List.ne_of_not_mem_cons hr)]

end Sys2Proof.Machine
end

section
/-! O43, O44, O45, O46, O47, O48: the rules of the whole machine. `exec_effect` says once, instruction by instruction,
which fault it can take and what it writes when it completes; each table of spec/10_state.md is a column of it. -/

namespace Sys2Proof.Machine

/-- Which instructions raise a kind of fault (spec/60_exceptions.md R114). -/
def MayRaise (i : Instr) : FaultKind → Prop
  | .stackOverflow => ∃ nnn, i = .call nnn
  | .stackUnderflow => i = .ret
  | .unknownOpcode => False
  | .memoryOutOfRange => ∃ x, (∃ y n, i = .drw x y n) ∨ i = .ldB x ∨ i = .stRegs x ∨ i = .ldRegs x
  | .reservedWrite => ∃ x, i = .ldB x ∨ i = .stRegs x
  | .operandOutOfRange => ∃ x, i = .skp x ∨ i = .sknp x ∨ i = .ldF x

/-- What an instruction that completes may have written, beside what `Completed` says of the rest. -/
structure Effect (i : Instr) (s t : State) : Prop where
  regs : ∀ r, ¬mayWrite i r → t.getV r = s.getV r
  pc : pcAfter s i t.pc
  index : t.i = s.i ∨ (∃ nnn, i = .ldI nnn) ∨ (∃ x, i = .addI x ∨ i = .ldF x) ∨
    s.cfg.loadStoreIncrementsI = true ∧ ∃ x, i = .stRegs x ∨ i = .ldRegs x
  sp : t.sp = s.sp ∨ i = .ret ∨ ∃ nnn, i = .call nnn
  stack : t.stack = s.stack ∨ ∃ nnn, i = .call nnn
  dt : t.dt = s.dt ∨ ∃ x, i = .ldDTVx x
  st : t.st = s.st ∨ ∃ x, i = .ldSTVx x
  mem : t.mem = s.mem ∨ ∃ x, i = .ldB x ∨ i = .stRegs x
  disp : t.disp = s.disp ∧ t.drawFlag = s.drawFlag ∨ i = .cls ∨ ∃ x y n, i = .drw x y n
  keysPrev : t.keysPrev = s.keysPrev ∨ ∃ x, i = .ldVxK x
  draws : t.draws = s.draws ∨ ∃ x kk, i = .rnd x kk
  live : s.live → t.live

/-! ### The kinds the checks raise -/

section
variable {c : Config} {base n : Nat} {s : State} {x : Reg} {r : Trap}

theorem kind_of_readTrap (h : readTrap base n = some r) : r.kind = .memoryOutOfRange := by
  rw [readTrap_eq] at h
  split at h <;> cases h
  rfl

theorem kind_of_writeTrap (h : writeTrap c base n = some r) :
    r.kind = .memoryOutOfRange ∨ r.kind = .reservedWrite := by
  rw [writeTrap_eq] at h
  split at h
  · cases h
    exact .inl rfl
  · split at h <;> cases h
    exact .inr rfl

theorem kind_of_digitTrap (h : s.digitTrap x = some r) : r.kind = .operandOutOfRange := by
  rw [digitTrap_eq] at h
  split at h <;> cases h
  rfl

end

/-! ### The end of Fx55 and Fx65 -/

theorem postIncrement_i (s : State) (x : Reg) :
    (s.postIncrement x).i = s.i ∨ s.cfg.loadStoreIncrementsI = true := by
  rw [State.postIncrement]
  split
  case isTrue hinc => exact .inr hinc
  case isFalse => exact .inl rfl

theorem getV_setRegs_loadRegs_of_length_le (s : State) {bs : List Byte} {r : Reg} (h : bs.length ≤ r.toNat) :
    (s.setRegs (loadRegs 0 bs s.v)).getV r = s.getV r := by
  rw [getV_setRegs_loadRegs, dif_neg (Nat.not_lt.mpr h)]

/-! ### The instructions one by one -/

section
variable {i : Instr} {s t : State}

/-- A checked instruction: the kinds its check raises, and what its body does. -/
theorem guarded_effect {trap : Option Trap} {bits : Word} {body : State}
    (h : guarded trap bits s (.next body) = .next t) (hbits : bits = encode i)
    (hkind : ∀ r, trap = some r → MayRaise i r.kind) (hbody : trap = none → Effect i s body) :
    (∃ r, MayRaise i r.kind ∧ t = s.raise r (some (encode i))) ∨ Effect i s t := by
  subst hbits
  obtain ⟨r, hr, rfl⟩ | ⟨hnone, hnext⟩ := guarded_cases h
  · exact .inl ⟨r, hkind r hr, rfl⟩
  · cases hnext
    exact .inr (hbody hnone)

theorem exec_effect (h : exec i s = .next t) :
    (∃ r, MayRaise i r.kind ∧ t = s.raise r (some (encode i))) ∨ Effect i s t := by
  cases i with
  | ret =>
    obtain hempty | hheld := Nat.eq_zero_or_pos s.sp.val
    · cases (exec_ret_of_empty hempty).symm.trans h
      exact .inl ⟨⟨.stackUnderflow, .absent⟩, rfl, rfl⟩
    · obtain ⟨v, s', hpop⟩ := State.pop_isSome hheld
      obtain ⟨-, -, hslot, hframe⟩ := State.pop_cases hpop
      cases (exec_ret_of_pop hpop).symm.trans h
      rw [hframe]
      right
      constructor <;> simp [pcAfter, hslot, State.getV]
  | call nnn =>
    by_cases hfull : s.sp.val = 16
    · cases (exec_call_of_full nnn hfull).symm.trans h
      exact .inl ⟨⟨.stackOverflow, .absent⟩, ⟨nnn, rfl⟩, rfl⟩
    · obtain ⟨s', hpush⟩ := State.push_isSome (s := s) (s.pc + 2#16) (by omega)
      obtain ⟨-, -, -, -, hframe⟩ := State.push_cases hpush
      cases (exec_call_of_push hpush).symm.trans h
      rw [hframe]
      right
      constructor <;> simp [pcAfter, State.getV]
  | skp x =>
    refine guarded_effect h rfl (fun r hr => ?_) fun _ => ?_
    · rw [kind_of_digitTrap hr]
      exact ⟨x, .inl rfl⟩
    · constructor <;> simp [pcAfter, State.keyPressed]
  | sknp x =>
    refine guarded_effect h rfl (fun r hr => ?_) fun _ => ?_
    · rw [kind_of_digitTrap hr]
      exact ⟨x, .inr (.inl rfl)⟩
    · cases hkey : s.keys.getLsbD (s.getV x).toNat <;> constructor <;> simp [pcAfter, State.keyPressed, hkey]
  | ldF x =>
    refine guarded_effect h rfl (fun r hr => ?_) fun _ => ?_
    · rw [kind_of_digitTrap hr]
      exact ⟨x, .inr (.inr rfl)⟩
    · constructor <;> simp [pcAfter]
  | drw x y n =>
    refine guarded_effect h rfl (fun r hr => ?_) fun _ => ?_
    · rw [kind_of_readTrap hr]
      exact ⟨x, .inl ⟨y, n, rfl⟩⟩
    · constructor <;> simp +contextual [pcAfter, mayWrite, State.getV_setV]
  | ldB x =>
    refine guarded_effect h rfl (fun r hr => ?_) fun _ => ?_
    · obtain hk | hk := kind_of_writeTrap hr <;> rw [hk]
      · exact ⟨x, .inr (.inl rfl)⟩
      · exact ⟨x, .inl rfl⟩
    · constructor <;> simp [pcAfter]
  | stRegs x =>
    refine guarded_effect h rfl (fun r hr => ?_) fun _ => ?_
    · obtain hk | hk := kind_of_writeTrap hr <;> rw [hk]
      · exact ⟨x, .inr (.inr (.inl rfl))⟩
      · exact ⟨x, .inr rfl⟩
    · have hindex := postIncrement_i (s.writeBytes s.dataBase (s.lowRegs x)) x
      rw [State.postIncrement_eq] at hindex ⊢
      constructor
      case index => exact hindex.imp_right fun hinc => .inr (.inr ⟨hinc, x, .inl rfl⟩)
      all_goals simp [pcAfter]
  | ldRegs x =>
    refine guarded_effect h rfl (fun r hr => ?_) fun _ => ?_
    · rw [kind_of_readTrap hr]
      exact ⟨x, .inr (.inr (.inr rfl))⟩
    · have hindex := postIncrement_i (s.setRegs (loadRegs 0 (s.readBytes s.dataBase (regCount x)) s.v)) x
      rw [State.postIncrement_eq] at hindex ⊢
      constructor
      case regs =>
        refine fun r hr => getV_setRegs_loadRegs_of_length_le s ?_
        rw [readBytes_length]
        exact Nat.not_le.mp hr
      case index => exact hindex.imp_right fun hinc => .inr (.inr ⟨hinc, x, .inr rfl⟩)
      all_goals simp [pcAfter]
  | ldVxK x =>
    right
    cases hedge : lowestSet? s.keyEdges with
    | none =>
      have hzero : s.keys &&& ~~~s.keysPrev = 0#16 := lowestSet?_eq_none.mp hedge
      cases (exec_ldVxK_of_noEdge x hedge).symm.trans h
      constructor <;> simp [pcAfter, hzero]
    | some k =>
      have hne : s.keys &&& ~~~s.keysPrev ≠ 0#16 := fun hzero => by
        cases hedge.symm.trans (lowestSet?_eq_none.mpr hzero)
      cases (exec_ldVxK_of_edge x hedge).symm.trans h
      constructor <;> simp +contextual [pcAfter, mayWrite, State.getV_setV, hne]
  | jp | jpV0 | seByte | sneByte | seReg | sneReg =>
    cases h
    right
    constructor <;> simp [pcAfter, toNat_offsetTarget]
  | ldByte | addByte | ldReg | orReg | andReg | xorReg | rnd | ldVxDT | addReg | subReg | shrReg | subnReg | shlReg =>
    cases h
    right
    constructor <;> simp +contextual [pcAfter, mayWrite, State.getV_setV]
  | cls | ldI | ldDTVx | ldSTVx | addI =>
    cases h
    right
    constructor <;> simp [pcAfter]

end

/-! ### The obligations -/

section
variable {i : Instr} {s t : State}

/-- Only a fault halts a live state. -/
theorem exec_halts (hlive : s.live) (h : exec i s = .next t) (hhalted : t.status = .halted) :
    ∃ r, MayRaise i r.kind ∧ t = s.raise r (some (encode i)) :=
  (exec_effect h).resolve_right fun heffect => heffect.live hlive hhalted

theorem exec_keys (h : exec i s = .next t) : t.keys = s.keys := by
  obtain ⟨r, rfl⟩ | hc := exec_cases h
  · rfl
  · exact hc.keys

theorem exec_cfg (h : exec i s = .next t) : t.cfg = s.cfg := by
  obtain ⟨r, rfl⟩ | hc := exec_cases h
  · rfl
  · exact hc.cfg

theorem exec_events (h : exec i s = .next t) : t.events = s.events := by
  obtain ⟨r, rfl⟩ | hc := exec_cases h
  · rfl
  · exact hc.events

theorem exec_status (h : exec i s = .next t) :
    t.status = s.status ∨ (∃ x, i = .ldVxK x) ∨ ∃ kind info, t = faulted s kind (some (encode i)) info := by
  obtain ⟨r, rfl⟩ | hc := exec_cases h
  · exact .inr (.inr ⟨r.kind, r.info, rfl⟩)
  · exact hc.status.imp (fun ⟨hstatus, _⟩ => hstatus) fun ⟨x, hx, _⟩ => .inl ⟨x, hx⟩

theorem exec_fault (h : exec i s = .next t) :
    t.fault = s.fault ∨ ∃ kind info, t = faulted s kind (some (encode i)) info := by
  obtain ⟨r, rfl⟩ | hc := exec_cases h
  · exact .inr ⟨r.kind, r.info, rfl⟩
  · exact .inl hc.fault

theorem cpuStep_keys (h : cpuStep s = .next t) : t.keys = s.keys := by
  obtain ⟨-, ⟨r, -, rfl⟩ | ⟨-, -, rfl⟩ | ⟨-, i, -, hexec⟩⟩ := cpuStep_cases h
  · rfl
  · rfl
  · exact exec_keys hexec

theorem keyUpdate_keys (s : State) (new : Word) :
    (s.keyUpdate new).keys = if s.status = .halted then s.keys else new := by
  rw [State.keyUpdate]
  split <;> rfl

end

/-- Settles O43. -/
theorem onlyTheListedInstructionsWriteRegisters : Obligations.OnlyTheListedInstructionsWriteRegisters :=
  fun _ s _ r h hr => by
  obtain ⟨trap, -, rfl⟩ | heffect := exec_effect h
  · exact s.raise_getV trap _ r
  · exact heffect.regs r hr

/-- Settles O44. -/
theorem eachPieceOfStateHasItsWriters : Obligations.EachPieceOfStateHasItsWriters := fun i s t h => by
  have hstatus := exec_status h
  have hfault := exec_fault h
  obtain ⟨r, -, rfl⟩ | heffect := exec_effect h
  · exact ⟨.inl rfl, .inl rfl, .inl rfl, .inl rfl, .inl rfl, .inl rfl, .inl ⟨rfl, rfl⟩, rfl, .inl rfl, hstatus,
      hfault, rfl, .inl rfl, rfl⟩
  · exact ⟨heffect.index, heffect.sp, heffect.stack, heffect.dt, heffect.st, heffect.mem, heffect.disp, exec_keys h,
      heffect.keysPrev, hstatus, hfault, exec_cfg h, heffect.draws, exec_events h⟩

/-- Settles O45. -/
theorem pcFollowsTheTable : Obligations.PcFollowsTheTable := fun _ s t hlive h => by
  obtain ⟨r, -, rfl⟩ | heffect := exec_effect h
  · exact ⟨fun hlive' => absurd rfl hlive', fun _ => rfl⟩
  · exact ⟨fun _ => heffect.pc, fun hhalted => absurd hhalted (heffect.live hlive)⟩

/-- Settles O46. -/
theorem faultsArePrecise : Obligations.FaultsArePrecise := fun _ _ _ hlive h hhalted => by
  obtain ⟨r, -, rfl⟩ := exec_halts hlive h hhalted
  exact ⟨r.kind, r.info, rfl⟩

/-- Settles O47: `MayRaise` is the table, the codes are those of the kinds. -/
theorem faultKindsByInstruction : Obligations.FaultKindsByInstruction := by
  refine ⟨rfl, fun i s t r hlive h hhalted hrecord => ?_⟩
  obtain ⟨trap, hraise, rfl⟩ := exec_halts hlive h hhalted
  obtain rfl : ⟨trap.kind, s.pc, some (encode i), trap.info⟩ = r := Option.some.inj hrecord
  revert hraise
  cases trap.kind with
  | unknownOpcode => exact id
  | stackOverflow | stackUnderflow | memoryOutOfRange | reservedWrite | operandOutOfRange => exact And.intro rfl

/-- Settles O48: of the events only a key-state update writes KEYS, and no instruction does. -/
theorem keysChangeOnlyAtKeyUpdates : Obligations.KeysChangeOnlyAtKeyUpdates := by
  refine ⟨fun _ _ _ => exec_keys, fun s t h => ?_⟩
  rw [step_eq] at h
  cases hevent : s.nextEvent <;> rw [hevent] at h
  case step => exact cpuStep_keys (s := s.popEvent) h
  case keyUpdate new =>
    cases h
    exact keyUpdate_keys s.popEvent new
  case tick =>
    cases h
    rw [tick_cases]
    rfl
  case presentAck =>
    cases h
    rw [presentAck_cases]
    rfl

end Sys2Proof.Machine
end
